-- ==== Sys2Proof/Word.lean ====
section
/-! DEFINITION. The word type of the PS2FP core and the 3-bit flag set. -/

namespace Sys2Proof

/-- An operand or result word: exactly 32 bits (R13). -/
abbrev Word := BitVec 32

/-- A flag set: bit 0 is O (Overflow), bit 1 U (Underflow), bit 2 I (Invalid), wherever it appears (R61). -/
abbrev FlagSet := BitVec 3

end Sys2Proof
end

