-- ==== Sys2Proof/Machine/Flags.lean ====
section
/-! DEFINITION. The flag sets and the FLAGS register's update and read (R61, R196, R197). -/

namespace Sys2Proof.Machine

/-- O, Overflow (R61). -/
def flagO : FlagSet := 0b001#3

/-- U, Underflow (R61). -/
def flagU : FlagSet := 0b010#3

/-- I, Invalid (R61). -/
def flagI : FlagSet := 0b100#3

/-- No flag. -/
def noFlags : FlagSet := 0b000#3

/-- The sticky update: FLAGS | delta (R196). -/
def accumulate (flags delta : FlagSet) : FlagSet := flags ||| delta

/-- zext_32(FLAGS): bit 0 O, bit 1 U, bit 2 I, bits 31:3 zero (R21, R197). -/
def flagsWord (flags : FlagSet) : Word := flags.setWidth 32

end Sys2Proof.Machine
end

