-- ==== Sys2Proof/Config.lean ====
section
/-! DEFINITION. The parameters of the block (R7) and the rounding unit's interface (R100). Their default values stand in
Sys2Proof/Machine/Params.lean. -/

namespace Sys2Proof

/-- MAXMAG_OPERAND_MODE: what an operand word with exponent field 255 is worth (R7, decision D11). -/
inductive OperandMode where
  /-- the exponent range extends through 255: (2^23 + f) · 2^105 -/
  | extended
  /-- every such word has the value MAXMAG -/
  | canonical
  deriving DecidableEq, Repr

/-- What the rounding unit receives (R100): the sign, the 24-bit significand and the three bits below it. -/
structure RoundInput where
  sign : Bool
  sig : BitVec 24
  guard : Bool
  round : Bool
  sticky : Bool
  deriving DecidableEq, Repr

/-- What the rounding unit returns (R100): the rounded 23-bit mantissa and the carry into the exponent. -/
structure RoundOutput where
  frac : BitVec 23
  carry : Bool
  deriving DecidableEq, Repr

/-- A rounding policy is a function of (s, M, G, R, S) alone (R103). -/
abbrev RoundPolicy := RoundInput → RoundOutput

/-- The part of R103's contract that a policy's own input and output can show: a carry comes with an all-zero mantissa. -/
def RoundPolicy.Contract (p : RoundPolicy) : Prop := ∀ r, (p r).carry = true → (p r).frac = 0

/-- The named parameters of R7. -/
structure Config where
  /-- EXP_BIAS -/
  expBias : Int
  /-- MAXMAG_OPERAND_MODE -/
  operandMode : OperandMode
  /-- MAXMAG_PATTERN, the low 31 bits of the clamp word -/
  maxMagPattern : BitVec 31
  /-- MIN_NORMAL is 2 to this power -/
  minNormalExp : Int
  /-- ROUND_POLICY -/
  roundPolicy : RoundPolicy
  /-- FLAGS_RESET -/
  flagsReset : FlagSet

end Sys2Proof
end

