-- ==== Sys2Proof/Machine/Params.lean ====
section
/-! DEFINITION. The parameters' values in this model: the defaults of R7. -/

namespace Sys2Proof.Machine

/-- RZ, truncation toward zero: the guard, round and sticky bits and the sign are discarded (R102). -/
def roundTowardZero : RoundPolicy := fun r => { frac := r.sig.extractLsb' 0 23, carry := false }

/-- The default of every named parameter (R7). They are the spec's choices, not measured hardware truth (log entry 6). -/
def config : Config :=
  { expBias := 127
    operandMode := .extended
    maxMagPattern := 0x7FFFFFFF#31
    minNormalExp := -126
    roundPolicy := roundTowardZero
    flagsReset := 0b000#3 }

end Sys2Proof.Machine
end

