-- ==== Sys2Proof/Machine/Operands.lean ====
section
/-! DEFINITION. The value fields of a word, exact rational magnitudes, and the two functions every operation uses: Decode (R80)
and Class (R81). -/

namespace Sys2Proof.Machine

/-! ### Fields of a value word (R62) -/

/-- s = p[31] -/
def signBit (p : Word) : Bool := p.getLsbD 31

/-- e = p[30:23] -/
def expField (p : Word) : BitVec 8 := p.extractLsb' 23 8

/-- f = p[22:0] -/
def fracField (p : Word) : BitVec 23 := p.extractLsb' 0 23

/-- The word s ‖ e ‖ f. -/
def packWord (s : Bool) (e : BitVec 8) (f : BitVec 23) : Word := BitVec.ofBool s ++ e ++ f

/-- ZERO_WORD(s): the sign and all else 0 (R10, R106). -/
def zeroWord (s : Bool) : Word := BitVec.ofBool s ++ 0#31

/-- MAXMAG_WORD(s): the sign and MAXMAG_PATTERN (R10, R105). -/
def maxMagWord (cfg : Config) (s : Bool) : Word := BitVec.ofBool s ++ cfg.maxMagPattern

/-! ### Exact magnitudes (R9)

A non-negative rational held as an unreduced fraction of naturals, so that every operation on it is exact natural-number
arithmetic (log entry 11). Every magnitude the operations build has a positive denominator. -/

structure Mag where
  num : Nat
  den : Nat
  deriving DecidableEq, Repr

namespace Mag

def ofNat (n : Nat) : Mag := { num := n, den := 1 }

def isZero (x : Mag) : Bool := x.num == 0

def mul (x y : Mag) : Mag := { num := x.num * y.num, den := x.den * y.den }

/-- x / y, for y not zero. -/
def div (x y : Mag) : Mag := { num := x.num * y.den, den := x.den * y.num }

/-- 1 / x, for x not zero. -/
def inv (x : Mag) : Mag := { num := x.den, den := x.num }

/-- x · 2^k -/
def scale (x : Mag) (k : Int) : Mag :=
  match k with
  | .ofNat n => { num := x.num * 2 ^ n, den := x.den }
  | .negSucc n => { num := x.num, den := x.den * 2 ^ (n + 1) }

/-- x < y -/
def lt (x y : Mag) : Bool := decide (x.num * y.den < y.num * x.den)

/-- floor(x) -/
def floor (x : Mag) : Nat := x.num / x.den

/-- x is an integer -/
def isInt (x : Mag) : Bool := x.num % x.den == 0

end Mag

/-! ### Decode (R80) -/

/-- A word's sign bit and exact magnitude. -/
structure Decoded where
  sign : Bool
  mag : Mag
  deriving DecidableEq, Repr

/-- (2^23 + f) · 2^(e − 150), with the bias a parameter: the value the fields of a word with e ≥ 1 spell (R80). -/
def fieldsValue (cfg : Config) (e : BitVec 8) (f : BitVec 23) : Mag :=
  (Mag.ofNat (2 ^ 23 + f.toNat)).scale (e.toNat - (cfg.expBias + 23))

/-- MAXMAG, the value of MAXMAG_PATTERN (R7, R105). -/
def maxMag (cfg : Config) : Mag :=
  fieldsValue cfg (cfg.maxMagPattern.extractLsb' 23 8) (cfg.maxMagPattern.extractLsb' 0 23)

/-- Decode: true zeros and denormals are worth 0, every other word the value its fields spell, exponent field 255 included
under EXTENDED and worth MAXMAG under CANONICAL (R80, R7). -/
def decodeValue (cfg : Config) (p : Word) : Decoded :=
  { sign := signBit p
    mag :=
      if expField p = 0 then Mag.ofNat 0
      else if expField p = 255 ∧ cfg.operandMode = .canonical then maxMag cfg
      else fieldsValue cfg (expField p) (fracField p) }

/-! ### Class (R81) -/

inductive ValueClass where
  | positiveZero
  | negativeZero
  | normal
  | maxMagnitudePositive
  | maxMagnitudeNegative
  deriving DecidableEq, Repr

/-- The ValueClass of a word: denormals are in the zero class of their sign, exponent field 255 is MaxMagnitude (R81). -/
def valueClass (p : Word) : ValueClass :=
  if expField p = 0 then (if signBit p then .negativeZero else .positiveZero)
  else if expField p = 255 then (if signBit p then .maxMagnitudeNegative else .maxMagnitudePositive)
  else .normal

/-- A zero operand: its class is PositiveZero or NegativeZero (R85). -/
def isZeroClass (p : Word) : Bool := valueClass p == .positiveZero || valueClass p == .negativeZero

/-- BE(p): p is a denormal, the only words whose class is the spec's unconfirmed choice (R83). -/
def bestEffort (p : Word) : Bool := decide (expField p = 0 ∧ fracField p ≠ 0)

/-- The 3-bit class code, in the order of the ValueClass variants (R60). -/
def classCode : ValueClass → BitVec 3
  | .positiveZero => 0
  | .negativeZero => 1
  | .normal => 2
  | .maxMagnitudePositive => 3
  | .maxMagnitudeNegative => 4

/-- The CLASS result word: bit 3 is BE, bits 2:0 the code, bits 31:4 zero (R63). -/
def classWord (p : Word) : Word :=
  (BitVec.ofBool (bestEffort p) ++ classCode (valueClass p)).setWidth 32

end Sys2Proof.Machine
end

