-- ==== Sys2Proof/Machine/Rounding.lean ====
section
/-! DEFINITION. The shared tail of every arithmetic operation: the exact result, the rounding unit's intermediate (R101),
RoundPack (R104) and AddCore (R112). -/

namespace Sys2Proof.Machine

/-- What an operation returns: its result word and its delta (R10, R15). -/
structure OpResult where
  result : Word
  delta : FlagSet
  deriving DecidableEq, Repr

/-! ### Integer square root -/

/-- The `k` low bits of a root, from the top: `r` is the part found so far. -/
def rootBits : Nat → Nat → Nat → Nat
  | 0, _, r => r
  | k + 1, n, r => if (r + 2 ^ k) * (r + 2 ^ k) ≤ n then rootBits k n (r + 2 ^ k) else rootBits k n r

/-- isqrt(n), the greatest r with r² ≤ n (R178). -/
def isqrt (n : Nat) : Nat := rootBits (n.log2 / 2 + 1) n 0

/-! ### Exact results -/

/-- floor(log2 x) for x > 0: the difference of the bit lengths, or one less. -/
def Mag.floorLog2 (x : Mag) : Int :=
  if x.lt ((Mag.ofNat 1).scale ((x.num.log2 : Int) - x.den.log2)) then (x.num.log2 : Int) - x.den.log2 - 1
  else (x.num.log2 : Int) - x.den.log2

/-- The exact positive magnitude RoundPack receives: a rational, or the real square root of one (R9, R101). -/
inductive Exact where
  | rat (x : Mag)
  | root (x : Mag)
  deriving DecidableEq, Repr

namespace Exact

/-- m < y; a root is compared through squares. -/
def exceeds (y : Exact) (m : Mag) : Bool :=
  match y with
  | rat x => m.lt x
  | root x => (m.mul m).lt x

/-- y < m -/
def isBelow (y : Exact) (m : Mag) : Bool :=
  match y with
  | rat x => x.lt m
  | root x => x.lt (m.mul m)

/-- floor(log2 y); floor(log2 sqrt x) is half of floor(log2 x), rounded down. -/
def floorLog2 : Exact → Int
  | rat x => x.floorLog2
  | root x => x.floorLog2 / 2

/-- floor(y · 2^k); for a root the integer square root of floor(x · 2^(2k)) (R178). -/
def floorScaled (y : Exact) (k : Int) : Nat :=
  match y with
  | rat x => (x.scale k).floor
  | root x => isqrt (x.scale (2 * k)).floor

/-- y · 2^k is an integer; for a root, x · 2^(2k) is a perfect square. -/
def scaledIsInt (y : Exact) (k : Int) : Bool :=
  match y with
  | rat x => (x.scale k).isInt
  | root x =>
    (x.scale (2 * k)).isInt &&
      isqrt (x.scale (2 * k)).floor * isqrt (x.scale (2 * k)).floor == (x.scale (2 * k)).floor

end Exact

/-! ### The rounding unit's intermediate (R101) -/

/-- (E, M, G, R, S): the exponent that travels beside the unit, the significand and the three bits below it. -/
structure Intermediate where
  exponent : Int
  sig : BitVec 24
  guard : Bool
  round : Bool
  sticky : Bool
  deriving DecidableEq, Repr

/-- E = floor(log2 y), W = floor(y · 2^(25 − E)), M = W[25:2], G = W[1], R = W[0], S = whether y · 2^(25 − E) ≠ W (R101). -/
def intermediate (y : Exact) : Intermediate :=
  let e := y.floorLog2
  let w : BitVec 26 := BitVec.ofNat 26 (y.floorScaled (25 - e))
  { exponent := e
    sig := w.extractLsb' 2 24
    guard := w.getLsbD 1
    round := w.getLsbD 0
    sticky := !y.scaledIsInt (25 - e) }

/-! ### RoundPack (R104) -/

/-- MIN_NORMAL, the underflow threshold (R7, R106). -/
def minNormal (cfg : Config) : Mag := (Mag.ofNat 1).scale cfg.minNormalExp

/-- The end of RoundPack, after the rounding unit: the carry into the exponent, the range test it can need (R108), the word. -/
def packRounded (cfg : Config) (s : Bool) (exponent : Int) (r : RoundOutput) : OpResult :=
  let e := if r.carry then exponent + 1 else exponent
  if e > 255 - cfg.expBias then { result := maxMagWord cfg s, delta := flagO }
  else { result := packWord s (BitVec.ofInt 8 (e + cfg.expBias)) r.frac, delta := noFlags }

/-- RoundPack(s, y), for y > 0: the exact result against the overflow and underflow thresholds, then the rounding unit, then
the word (R104, R105, R106). -/
def roundPack (cfg : Config) (s : Bool) (y : Exact) : OpResult :=
  if y.exceeds (maxMag cfg) then { result := maxMagWord cfg s, delta := flagO }
  else if y.isBelow (minNormal cfg) then { result := zeroWord s, delta := flagU }
  else
    let i := intermediate y
    packRounded cfg s i.exponent
      (cfg.roundPolicy { sign := s, sig := i.sig, guard := i.guard, round := i.round, sticky := i.sticky })

/-! ### AddCore (R112) -/

/-- (−1)^s · n -/
def signedInt (s : Bool) (n : Nat) : Int := if s then -(n : Int) else (n : Int)

/-- The numerator of (−1)^sa · xa + (−1)^sb · xb over the denominator xa.den · xb.den. -/
def signedSum (x y : Decoded) : Int :=
  signedInt x.sign (x.mag.num * y.mag.den) + signedInt y.sign (y.mag.num * x.mag.den)

/-- AddCore(sa, xa, sb, xb): the exact signed sum through RoundPack; an exact zero is +0, unless both addends are zeros of one
sign, whose sign it keeps (R112). -/
def addCore (cfg : Config) (x y : Decoded) : OpResult :=
  let r := signedSum x y
  if r ≠ 0 then roundPack cfg (decide (r < 0)) (.rat { num := r.natAbs, den := x.mag.den * y.mag.den })
  else if x.mag.isZero && y.mag.isZero && x.sign == y.sign then { result := zeroWord x.sign, delta := noFlags }
  else { result := zeroWord false, delta := noFlags }

end Sys2Proof.Machine
end

