-- ==== Sys2Proof/Syntax.lean ====
section
/-! DEFINITION. The operations of the block, one constructor per row of spec/opcode_table.json (R57). A constructor carries the
operand words its operation reads and no others: an unread operand never affects anything (R58). -/

namespace Sys2Proof

inductive Instr where
  /-- 0x0 ADD: a + b (R120) -/
  | add (a b : Word)
  /-- 0x1 SUB: a − b (R121) -/
  | sub (a b : Word)
  /-- 0x2 MUL: a × b (R135) -/
  | mul (a b : Word)
  /-- 0x3 DIV: a / b (R145) -/
  | div (a b : Word)
  /-- 0x4 MADD: a × b + c, fused (R160) -/
  | madd (a b c : Word)
  /-- 0x5 MSUB: c − a × b, fused (R161) -/
  | msub (a b c : Word)
  /-- 0x6 SQRT (R175) -/
  | sqrt (a : Word)
  /-- 0x7 RSQRT: 1 / sqrt(a) (R176) -/
  | rsqrt (a : Word)
  /-- 0x8 RCP: 1 / a (R177) -/
  | rcp (a : Word)
  /-- 0x9 CLASS: class code of a (R86) -/
  | classify (a : Word)
  /-- 0xA RDFLAGS (R197) -/
  | rdflags
  /-- 0xB CLRFLAGS (R198) -/
  | clrflags
  /-- 0xC to 0xF, the reserved op codes (R59, R199) -/
  | reserved (op : BitVec 4)
  deriving DecidableEq, Repr

end Sys2Proof
end

