-- ==== Sys2Proof/WellFormed.lean ====
section
/-! DEFINITION. Which instruction terms stand for a request: a reserved instruction carries one of the op codes 0xC to 0xF (R59). -/

namespace Sys2Proof

def Instr.wellFormed : Instr → Bool
  | .add _ _ => true
  | .sub _ _ => true
  | .mul _ _ => true
  | .div _ _ => true
  | .madd _ _ _ => true
  | .msub _ _ _ => true
  | .sqrt _ => true
  | .rsqrt _ => true
  | .rcp _ => true
  | .classify _ => true
  | .rdflags => true
  | .clrflags => true
  | .reserved op => decide (0xC ≤ op.toNat)

end Sys2Proof
end

