-- ==== Sys2Proof/Decode.lean ====
section
/-! DEFINITION. Requests, their packing into REQ[99:0], the decoder, the encoder and the opcode table (30_encoding.md). -/

namespace Sys2Proof

/-- A request: the operation select and three operand words (R55). -/
structure Request where
  op : BitVec 4
  a : Word
  b : Word
  c : Word
  deriving DecidableEq, Repr

/-- REQ[99:0] = op ‖ a ‖ b ‖ c (R56). -/
def packRequest (r : Request) : BitVec 100 := r.op ++ r.a ++ r.b ++ r.c

/-- op = REQ[99:96], a = REQ[95:64], b = REQ[63:32], c = REQ[31:0] (R56). -/
def unpackRequest (q : BitVec 100) : Request :=
  { op := q.extractLsb' 96 4, a := q.extractLsb' 64 32, b := q.extractLsb' 32 32, c := q.extractLsb' 0 32 }

/-- The decoder of R68, total on all requests; operands an operation does not read are dropped (R58). -/
def decode (r : Request) : Instr :=
  match r.op.toNat with
  | 0x0 => .add r.a r.b
  | 0x1 => .sub r.a r.b
  | 0x2 => .mul r.a r.b
  | 0x3 => .div r.a r.b
  | 0x4 => .madd r.a r.b r.c
  | 0x5 => .msub r.a r.b r.c
  | 0x6 => .sqrt r.a
  | 0x7 => .rsqrt r.a
  | 0x8 => .rcp r.a
  | 0x9 => .classify r.a
  | 0xA => .rdflags
  | 0xB => .clrflags
  | _ => .reserved r.op

/-- The operation select of an instruction, from the op map of R57. -/
def opCode : Instr → BitVec 4
  | .add _ _ => 0x0#4
  | .sub _ _ => 0x1#4
  | .mul _ _ => 0x2#4
  | .div _ _ => 0x3#4
  | .madd _ _ _ => 0x4#4
  | .msub _ _ _ => 0x5#4
  | .sqrt _ => 0x6#4
  | .rsqrt _ => 0x7#4
  | .rcp _ => 0x8#4
  | .classify _ => 0x9#4
  | .rdflags => 0xA#4
  | .clrflags => 0xB#4
  | .reserved op => op

/-- The operand words an instruction reads, in the order a, b, c (R57, R66). -/
def operands : Instr → List Word
  | .add a b => [a, b]
  | .sub a b => [a, b]
  | .mul a b => [a, b]
  | .div a b => [a, b]
  | .madd a b c => [a, b, c]
  | .msub a b c => [a, b, c]
  | .sqrt a => [a]
  | .rsqrt a => [a]
  | .rcp a => [a]
  | .classify a => [a]
  | .rdflags => []
  | .clrflags => []
  | .reserved _ => []

/-- The request of an instruction, with every operand it does not read zero (DEDUCED from the REQ columns of
95_test_vectors.md section 3; log entry 9; safe: R58 makes those words irrelevant). -/
def encode (i : Instr) : Request :=
  { op := opCode i, a := (operands i).getD 0 0, b := (operands i).getD 1 0, c := (operands i).getD 2 0 }

/-- Why a raw word is no request. -/
inductive DecodeError where
  /-- more bits than the 100 of a request: the source's InvalidOperandWidth (R13, R219) -/
  | invalidOperandWidth
  deriving DecidableEq, Repr

/-- The decoder on a raw number of which the low `nbits` bits are given, numbered as REQ is. A number with a bit above
REQ[99] is refused by name (R13); every other one decodes (R59). -/
def decodeBits (nbits w : Nat) : Except DecodeError Instr :=
  if w % 2 ^ nbits < 2 ^ 100 then .ok (decode (unpackRequest (BitVec.ofNat 100 (w % 2 ^ nbits))))
  else .error .invalidOperandWidth

/-- What the decoder reads from a word of spec/opcode_table.json; none where it refuses (log entry 10). -/
def decodeTableWord (nbits w : Nat) : Option Instr :=
  match decodeBits nbits w with
  | .ok i => some i
  | .error _ => none

/-- A row of spec/opcode_table.json: it covers the requests REQ with REQ & mask = match. -/
structure TableRow where
  mnemonic : String
  pattern : BitVec 100
  mask : BitVec 100
  deriving DecidableEq, Repr

def TableRow.covers (row : TableRow) (q : BitVec 100) : Bool := q &&& row.mask == row.pattern

/-- The twelve operations' row for op code `op`: the mask takes the op field whole. -/
def operationRow (mnemonic : String) (op : BitVec 4) : TableRow :=
  { mnemonic := mnemonic, pattern := op ++ 0#96, mask := 0xF#4 ++ 0#96 }

/-- The opcode table (R57, spec/opcode_table.json); the reserved row's mask takes the op field's upper two bits. -/
def opcodeTable : List TableRow :=
  [operationRow "ADD" 0x0, operationRow "SUB" 0x1, operationRow "MUL" 0x2, operationRow "DIV" 0x3,
   operationRow "MADD" 0x4, operationRow "MSUB" 0x5, operationRow "SQRT" 0x6, operationRow "RSQRT" 0x7,
   operationRow "RCP" 0x8, operationRow "CLASS" 0x9, operationRow "RDFLAGS" 0xA, operationRow "CLRFLAGS" 0xB,
   { mnemonic := "RESERVED", pattern := 0xC#4 ++ 0#96, mask := 0xC#4 ++ 0#96 }]

/-- The table's mnemonic of an instruction. -/
def mnemonic : Instr → String
  | .add _ _ => "ADD"
  | .sub _ _ => "SUB"
  | .mul _ _ => "MUL"
  | .div _ _ => "DIV"
  | .madd _ _ _ => "MADD"
  | .msub _ _ _ => "MSUB"
  | .sqrt _ => "SQRT"
  | .rsqrt _ => "RSQRT"
  | .rcp _ => "RCP"
  | .classify _ => "CLASS"
  | .rdflags => "RDFLAGS"
  | .clrflags => "CLRFLAGS"
  | .reserved _ => "RESERVED"

end Sys2Proof
end

