-- ==== Sys2Proof/Machine/State.lean ====
section
/-! DEFINITION. The state of one instance of the block: FLAGS, and the two sides of the transaction interface held as plain data. -/

namespace Sys2Proof.Machine

/-- The response of a transaction (R55). -/
structure Response where
  /-- result word of the operation -/
  result : Word
  /-- the flags this transaction raised (R200) -/
  delta : FlagSet
  /-- the value of FLAGS after this transaction -/
  flags : FlagSet
  /-- true exactly for a reserved op code (R59) -/
  err : Bool
  deriving DecidableEq, Repr

/-- What the outside world can do to an instance. -/
inductive Input where
  /-- issue a transaction (R55) -/
  | request (r : Request)
  /-- reset the instance between transactions (R235) -/
  | reset
  /-- issue a transaction and cut it short by a reset (R237) -/
  | resetDuring (r : Request)
  deriving DecidableEq, Repr

structure State where
  /-- the sticky flag register FLAGS, the block's only persistent state (R20) -/
  flags : FlagSet
  /-- what the requester has issued and the block has not yet taken, oldest first (R45).
  DESIGN CHOICE, log entry 1, safe: a port of the block, not the spec's state -/
  pending : List Input
  /-- the response the latest step gave, none where it ran no transaction (R29).
  DESIGN CHOICE, log entry 2, safe: a port of the block, read by nothing -/
  response : Option Response
  deriving DecidableEq, Repr

/-- Why the machine stops with a fault: never. No operation traps, halts or fails (R210), so there is no constructor (log
entry 12; safe). -/
inductive Fault where
  deriving DecidableEq, Repr

/-- Why an instruction has no meaning in this model. -/
inductive Refusal where
  /-- an instruction without a meaning yet; no arm of exec raises it (safe) -/
  | notModelled (mnemonic : String)
  deriving DecidableEq, Repr

/-- The instance right after reset: FLAGS at FLAGS_RESET (R30, R235), nothing issued, no response given. -/
def State.reset : State := { flags := config.flagsReset, pending := [], response := none }

end Sys2Proof.Machine
end

