-- ==== Sys2Proof/Machine/Ops.lean ====
section
/-! DEFINITION. The shared operations over the state: how a transaction ends, and reset. The block takes no exceptions: an
exceptional condition is a bit of the delta that `complete` accumulates in FLAGS, and nothing else happens (R210, R216). -/

namespace Sys2Proof.Machine

/-- End a transaction: FLAGS becomes `newFlags` and the response carries it (R55, R195). -/
def answer (result : Word) (delta newFlags : FlagSet) (err : Bool) (s : State) : Host.Outcome State Fault Refusal :=
  .next { s with
    flags := newFlags
    response := some { result := result, delta := delta, flags := newFlags, err := err } }

/-- The end of every operation but CLRFLAGS and the reserved codes: FLAGS' = FLAGS | delta, err = 0 (R195, R196). -/
def complete (o : OpResult) (s : State) : Host.Outcome State Fault Refusal :=
  answer o.result o.delta (accumulate s.flags o.delta) false s

/-- Reset: every piece of state at its reset value, and no response (R235). What the requester has issued beyond it stays
issued, since it is not the block's state. -/
def resetInstance (s : State) : State := { s with flags := config.flagsReset, response := none }

/-- A transaction cut short by a reset: it leaves no result and no FLAGS change of its own, and the reset takes effect (R237;
log entry 5). -/
def abandonTransaction (_r : Request) (s : State) : State := resetInstance s

/-- No transaction runs: FLAGS stays and there is no response (DEDUCED from R23 and R29; log entry 3; safe). -/
def idle (s : State) : State := { s with response := none }

/-- RESP[38:0] = err ‖ flags ‖ delta ‖ result (R56). -/
def packResponse (r : Response) : BitVec 39 := BitVec.ofBool r.err ++ r.flags ++ r.delta ++ r.result

end Sys2Proof.Machine
end

