-- ==== Sys2Proof/Machine/AddSub.lean ====
section
/-! DEFINITION. ADD and SUB (42_add_sub.md). -/

namespace Sys2Proof.Machine

/-- ADD(a, b): the exact sum, rounded once (R120). -/
def opAdd (cfg : Config) (a b : Word) : OpResult := addCore cfg (decodeValue cfg a) (decodeValue cfg b)

/-- −x: only the sign changes (R121). -/
def Decoded.negate (x : Decoded) : Decoded := { x with sign := !x.sign }

/-- SUB(a, b): a + (−b), rounded once (R121). -/
def opSub (cfg : Config) (a b : Word) : OpResult := addCore cfg (decodeValue cfg a) (decodeValue cfg b).negate

/-- 0x0 ADD (R120). -/
def execAdd (a b : Word) (s : State) : Host.Outcome State Fault Refusal := complete (opAdd config a b) s

/-- 0x1 SUB (R121). -/
def execSub (a b : Word) (s : State) : Host.Outcome State Fault Refusal := complete (opSub config a b) s

end Sys2Proof.Machine
end

