-- ==== Sys2Proof/Machine/Div.lean ====
section
/-! DEFINITION. DIV (44_div.md). -/

namespace Sys2Proof.Machine

/-- DIV(a, b): the substitution table for zero operands (R146), else the exact quotient, rounded once (R145). -/
def opDiv (cfg : Config) (a b : Word) : OpResult :=
  let x := decodeValue cfg a
  let y := decodeValue cfg b
  let s := x.sign ^^ y.sign
  if y.mag.isZero then { result := maxMagWord cfg s, delta := if x.mag.isZero then flagI else flagO }
  else if x.mag.isZero then { result := zeroWord s, delta := noFlags }
  else roundPack cfg s (.rat (x.mag.div y.mag))

/-- 0x3 DIV (R145). -/
def execDiv (a b : Word) (s : State) : Host.Outcome State Fault Refusal := complete (opDiv config a b) s

end Sys2Proof.Machine
end

