-- ==== Sys2Proof/Machine/FlagOps.lean ====
section
/-! DEFINITION. CLASS (40_classifier.md), RDFLAGS, CLRFLAGS and the reserved op codes (47_flags.md). -/

namespace Sys2Proof.Machine

/-- 0x9 CLASS: the class code of a with the best-effort marker; no flag (R86). -/
def execClassify (a : Word) (s : State) : Host.Outcome State Fault Refusal :=
  complete { result := classWord a, delta := noFlags } s

/-- 0xA RDFLAGS: FLAGS as a word; no flag, FLAGS unchanged (R197). -/
def execRdflags (s : State) : Host.Outcome State Fault Refusal :=
  complete { result := flagsWord s.flags, delta := noFlags } s

/-- 0xB CLRFLAGS: result 0, all three flags cleared (R198). -/
def execClrflags (s : State) : Host.Outcome State Fault Refusal := answer 0 noFlags noFlags false s

/-- 0xC to 0xF: result 0, no flag, err = 1, FLAGS unchanged, whichever code it is (R59, R199).
DESIGN CHOICE, log entry 4, unsafe: the spec recommends refusing and gives this response to a model that does not. -/
def execReserved (_op : BitVec 4) (s : State) : Host.Outcome State Fault Refusal := answer 0 noFlags s.flags true s

end Sys2Proof.Machine
end

