-- ==== Sys2Proof/Machine/Mac.lean ====
section
/-! DEFINITION. MADD and MSUB, fused (45_mac.md). -/

namespace Sys2Proof.Machine

/-- The exact product with its sign, not rounded, range-checked or flagged; `negated` flips the sign (R160, R161). -/
def exactProduct (x y : Decoded) (negated : Bool) : Decoded :=
  { sign := x.sign ^^ y.sign ^^ negated, mag := x.mag.mul y.mag }

/-- MADD(a, b, c): a × b + c, rounded once (R160). -/
def opMadd (cfg : Config) (a b c : Word) : OpResult :=
  addCore cfg (exactProduct (decodeValue cfg a) (decodeValue cfg b) false) (decodeValue cfg c)

/-- MSUB(a, b, c): c − a × b, rounded once (R161). -/
def opMsub (cfg : Config) (a b c : Word) : OpResult :=
  addCore cfg (exactProduct (decodeValue cfg a) (decodeValue cfg b) true) (decodeValue cfg c)

/-- 0x4 MADD (R160). -/
def execMadd (a b c : Word) (s : State) : Host.Outcome State Fault Refusal := complete (opMadd config a b c) s

/-- 0x5 MSUB (R161). -/
def execMsub (a b c : Word) (s : State) : Host.Outcome State Fault Refusal := complete (opMsub config a b c) s

end Sys2Proof.Machine
end

