-- ==== Sys2Proof/Machine/Mul.lean ====
section
/-! DEFINITION. MUL (43_mul.md). -/

namespace Sys2Proof.Machine

/-- MUL(a, b): a signed zero where an operand is zero, else the exact product, rounded once (R135). -/
def opMul (cfg : Config) (a b : Word) : OpResult :=
  let x := decodeValue cfg a
  let y := decodeValue cfg b
  let s := x.sign ^^ y.sign
  if x.mag.isZero || y.mag.isZero then { result := zeroWord s, delta := noFlags }
  else roundPack cfg s (.rat (x.mag.mul y.mag))

/-- 0x2 MUL (R135). -/
def execMul (a b : Word) (s : State) : Host.Outcome State Fault Refusal := complete (opMul config a b) s

end Sys2Proof.Machine
end

