-- ==== Sys2Proof/Machine/Roots.lean ====
section
/-! DEFINITION. SQRT, RSQRT and RCP (46_sqrt_rsqrt_rcp.md). -/

namespace Sys2Proof.Machine

/-- SQRT(a): a zero of a's sign for a zero; else the positive root of the magnitude, with I where a is negative (R175). -/
def opSqrt (cfg : Config) (a : Word) : OpResult :=
  let x := decodeValue cfg a
  if x.mag.isZero then { result := zeroWord x.sign, delta := noFlags }
  else { result := (roundPack cfg false (.root x.mag)).result, delta := if x.sign then flagI else noFlags }

/-- RSQRT(a): the clamp word of a's sign with O for a zero; else 1 / sqrt of the magnitude, with I where a is negative (R176). -/
def opRsqrt (cfg : Config) (a : Word) : OpResult :=
  let x := decodeValue cfg a
  if x.mag.isZero then { result := maxMagWord cfg x.sign, delta := flagO }
  else { result := (roundPack cfg false (.root x.mag.inv)).result, delta := if x.sign then flagI else noFlags }

/-- RCP(a): the clamp word of a's sign with O for a zero; else the exact reciprocal, rounded once (R177). -/
def opRcp (cfg : Config) (a : Word) : OpResult :=
  let x := decodeValue cfg a
  if x.mag.isZero then { result := maxMagWord cfg x.sign, delta := flagO }
  else roundPack cfg x.sign (.rat x.mag.inv)

/-- 0x6 SQRT (R175). -/
def execSqrt (a : Word) (s : State) : Host.Outcome State Fault Refusal := complete (opSqrt config a) s

/-- 0x7 RSQRT (R176). -/
def execRsqrt (a : Word) (s : State) : Host.Outcome State Fault Refusal := complete (opRsqrt config a) s

/-- 0x8 RCP (R177). -/
def execRcp (a : Word) (s : State) : Host.Outcome State Fault Refusal := complete (opRcp config a) s

end Sys2Proof.Machine
end

