-- ==== Sys2Proof/Machine/Dispatch.lean ====
section
/-! DEFINITION. The dispatch of R195: one arm per instruction. -/

namespace Sys2Proof.Machine

def exec (i : Instr) (s : State) : Host.Outcome State Fault Refusal :=
  match i with
  | .add a b => Sys2Proof.Machine.execAdd a b s
  | .sub a b => Sys2Proof.Machine.execSub a b s
  | .mul a b => Sys2Proof.Machine.execMul a b s
  | .div a b => Sys2Proof.Machine.execDiv a b s
  | .madd a b c => Sys2Proof.Machine.execMadd a b c s
  | .msub a b c => Sys2Proof.Machine.execMsub a b c s
  | .sqrt a => Sys2Proof.Machine.execSqrt a s
  | .rsqrt a => Sys2Proof.Machine.execRsqrt a s
  | .rcp a => Sys2Proof.Machine.execRcp a s
  | .classify a => Sys2Proof.Machine.execClassify a s
  | .rdflags => Sys2Proof.Machine.execRdflags s
  | .clrflags => Sys2Proof.Machine.execClrflags s
  | .reserved op => Sys2Proof.Machine.execReserved op s

end Sys2Proof.Machine
end

