-- ==== Sys2Proof/Machine/Step.lean ====
section
/-! DEFINITION. One step of an instance: it takes the oldest pending input (R45, R195, R235, R237). -/

namespace Sys2Proof.Machine

/-- One step: a request is one whole transaction (R195), a reset and a transaction never overlap (R237), and with nothing pending
the instance idles (log entry 3). -/
def step (s : State) : Host.Outcome State Fault Refusal :=
  match s.pending with
  | [] => .next (idle s)
  | .request r :: rest => exec (decode r) { s with pending := rest }
  | .reset :: rest => .next (resetInstance { s with pending := rest })
  | .resetDuring r :: rest => .next (abandonTransaction r { s with pending := rest })

/-- The state with the request of a table word issued ahead of whatever is pending, so that the next step runs it. The block
fetches nothing (R25): a program is what the requester issues from outside (log entry 1). -/
def State.withFetchWord (s : State) (nbits w : Nat) : State :=
  { s with pending := .request (unpackRequest (BitVec.ofNat 100 (w % 2 ^ nbits))) :: s.pending }

end Sys2Proof.Machine
end

