-- ==== Sys2Proof/Machine/Contexts.lean ====
section
/-! DEFINITION. Several execution contexts: independent copies of the step, one FLAGS each (R220). -/

namespace Sys2Proof.Machine

/-- One step of context `n`; the others stand still. Which context moves next is the outside world's choice (R47, R220; log
entry 13). -/
def stepContext (cs : List State) (n : Fin cs.length) : Host.Outcome (List State) Fault Refusal :=
  match step cs[n] with
  | .next t => .next (cs.set n t)
  | .fault f => .fault f
  | .refused r => .refused r

end Sys2Proof.Machine
end

