-- ==== Sys2Proof/Machine/Fixture.lean ====
section
/-! DEFINITION. The textual syntax of the block: the issue text and the fixture row of R66, as lists of characters. -/

namespace Sys2Proof.Machine

/-- The mnemonic of R57 as written in a row; a reserved code has none (95_test_vectors.md section 3). -/
def issueMnemonic : Instr → List Char
  | .add _ _ => ['A', 'D', 'D']
  | .sub _ _ => ['S', 'U', 'B']
  | .mul _ _ => ['M', 'U', 'L']
  | .div _ _ => ['D', 'I', 'V']
  | .madd _ _ _ => ['M', 'A', 'D', 'D']
  | .msub _ _ _ => ['M', 'S', 'U', 'B']
  | .sqrt _ => ['S', 'Q', 'R', 'T']
  | .rsqrt _ => ['R', 'S', 'Q', 'R', 'T']
  | .rcp _ => ['R', 'C', 'P']
  | .classify _ => ['C', 'L', 'A', 'S', 'S']
  | .rdflags => ['R', 'D', 'F', 'L', 'A', 'G', 'S']
  | .clrflags => ['C', 'L', 'R', 'F', 'L', 'A', 'G', 'S']
  | .reserved _ => []

/-- The upper-case hexadecimal digits. -/
def hexDigits : List Char := ['0', '1', '2', '3', '4', '5', '6', '7', '8', '9', 'A', 'B', 'C', 'D', 'E', 'F']

/-- The value of a hexadecimal digit, of either case (log entry 16). -/
def hexValue (ch : Char) : Option Nat :=
  if ch ∈ hexDigits then some (hexDigits.idxOf ch)
  else if ch.toUpper ∈ hexDigits then some (hexDigits.idxOf ch.toUpper)
  else none

/-- `k` hexadecimal digits of a number, the most significant first (R41). -/
def hexText : Nat → Nat → List Char
  | 0, _ => []
  | k + 1, n => hexDigits.getD (n / 16 ^ k % 16) '0' :: hexText k n

/-- A word as 8 hexadecimal digits. -/
def wordText (p : Word) : List Char := hexText 8 p.toNat

/-- The number a run of hexadecimal digits spells, after the digits already read as `n`. -/
def hexNumber : List Char → Nat → Option Nat
  | [], n => some n
  | ch :: rest, n =>
    match hexValue ch with
    | some d => hexNumber rest (16 * n + d)
    | none => none

/-- word ::= 8 hexadecimal digits, optionally prefixed by "0x" (R66). -/
def parseWord (text : List Char) : Option Word :=
  let digits := match text with
    | '0' :: 'x' :: rest => rest
    | _ => text
  if digits.length = 8 then (hexNumber digits 0).map (BitVec.ofNat 32) else none

/-- The pieces of a text between its single spaces; `piece` is the one being read, newest character first. -/
def splitSpaces : List Char → List Char → List (List Char)
  | [], piece => [piece.reverse]
  | ch :: rest, piece => if ch = ' ' then piece.reverse :: splitSpaces rest [] else splitSpaces rest (ch :: piece)

/-- A mnemonic and the words it takes, in the order a, b, c (R66). -/
def instrOf (name : List Char) (words : List Word) : Option Instr :=
  match words with
  | [] =>
    if name = issueMnemonic .rdflags then some .rdflags
    else if name = issueMnemonic .clrflags then some .clrflags
    else none
  | [a] =>
    if name = issueMnemonic (.sqrt a) then some (.sqrt a)
    else if name = issueMnemonic (.rsqrt a) then some (.rsqrt a)
    else if name = issueMnemonic (.rcp a) then some (.rcp a)
    else if name = issueMnemonic (.classify a) then some (.classify a)
    else none
  | [a, b] =>
    if name = issueMnemonic (.add a b) then some (.add a b)
    else if name = issueMnemonic (.sub a b) then some (.sub a b)
    else if name = issueMnemonic (.mul a b) then some (.mul a b)
    else if name = issueMnemonic (.div a b) then some (.div a b)
    else none
  | [a, b, c] =>
    if name = issueMnemonic (.madd a b c) then some (.madd a b c)
    else if name = issueMnemonic (.msub a b c) then some (.msub a b c)
    else none
  | _ => none

/-- Every piece as a word, or none. -/
def parseWords : List (List Char) → Option (List Word)
  | [] => some []
  | piece :: rest =>
    match parseWord piece, parseWords rest with
    | some w, some ws => some (w :: ws)
    | _, _ => none

/-- issue ::= MNEMONIC with the words the operation reads, from its pieces (R66). -/
def parseIssuePieces : List (List Char) → Option Instr
  | [] => none
  | name :: rest =>
    match parseWords rest with
    | some ws => instrOf name ws
    | none => none

/-- The operation an issue text names. -/
def parseIssue (text : List Char) : Option Instr := parseIssuePieces (splitSpaces text [])

/-- The issue text of an operation (R66). -/
def issueText (i : Instr) : List Char := issueMnemonic i ++ (operands i).flatMap (fun p => ' ' :: wordText p)

/-- The flags of a set as written, O before U before I (R61). -/
def flagNames (d : FlagSet) : List Char :=
  (if d.getLsbD 0 then ['O'] else []) ++ (if d.getLsbD 1 then ['U'] else []) ++ (if d.getLsbD 2 then ['I'] else [])

/-- A flag set as written: the comma list of its flags between braces, which are characters 123 and 125 (R61, R66). -/
def flagSetText (d : FlagSet) : List Char :=
  [Char.ofNat 123] ++ (flagNames d).intersperse ',' ++ [Char.ofNat 125]

/-- flagset: the set whose text it is (R66). -/
def parseFlagSet (text : List Char) : Option FlagSet :=
  ((List.range 8).map (BitVec.ofNat 3)).find? (fun d => flagSetText d == text)

/-- A fixture row: an operation, its result word and its delta (R66). -/
structure Fixture where
  instr : Instr
  result : Word
  delta : FlagSet
  deriving DecidableEq, Repr

/-- The text of a fixture row. -/
def fixtureText (f : Fixture) : List Char :=
  issueText f.instr ++ [' ', '-', '>', ' '] ++ wordText f.result ++ [' '] ++ flagSetText f.delta

/-- The issue pieces before the arrow, and the pieces after it. -/
def splitArrow : List (List Char) → Option (List (List Char) × List (List Char))
  | [] => none
  | piece :: rest =>
    if piece = ['-', '>'] then some ([], rest)
    else (splitArrow rest).map (fun r => (piece :: r.1, r.2))

/-- fixture ::= issue "->" word flagset (R66). -/
def parseFixture (text : List Char) : Option Fixture :=
  match splitArrow (splitSpaces text []) with
  | some (issue, [word, flags]) =>
    match parseIssuePieces issue, parseWord word, parseFlagSet flags with
    | some i, some w, some d => some { instr := i, result := w, delta := d }
    | _, _, _ => none
  | _ => none

/-- The row holds in a state: its operation answers the row's result and delta there, with err = 0. -/
def Fixture.holds (f : Fixture) (s : State) : Bool :=
  match exec f.instr s with
  | .next t =>
    match t.response with
    | some r => r.result == f.result && r.delta == f.delta && !r.err
    | none => false
  | .fault _ => false
  | .refused _ => false

end Sys2Proof.Machine
end

