-- ==== Sys2Proof/Safety.lean ====
section
/-! DEFINITION. The terms the claims use: the invariant of a run, and the exact real values that the rules speak of, written from
the rules alone and not from the machine's own arithmetic. -/

namespace Sys2Proof.Machine

/-! ### The invariant of a run -/

/-- A transaction raises at most one flag (R214). -/
def legalDelta (d : FlagSet) : Bool := d == noFlags || d == flagO || d == flagU || d == flagI

/-- A response agrees with the FLAGS it was given beside: its copy is FLAGS (R55), its delta is one legal flag set contained in
FLAGS (R196, R214), and an error response is all zero (R59). -/
def Response.agrees (r : Response) (flags : FlagSet) : Bool :=
  r.flags == flags && r.delta &&& flags == r.delta && legalDelta r.delta &&
    (!r.err || (r.result == 0 && r.delta == noFlags))

/-- The invariant of every run: the response shown, if any, agrees with FLAGS. -/
def State.inv (s : State) : Bool :=
  match s.response with
  | none => true
  | some r => r.agrees s.flags

/-- The response a transaction answers with in a state. -/
def responseOf (i : Instr) (s : State) : Option Response :=
  match exec i s with
  | .next t => t.response
  | .fault _ => none
  | .refused _ => none

/-- The flags a request's transaction raises, asked of an instance after reset. -/
def raised (r : Request) : FlagSet :=
  match responseOf (decode r) State.reset with
  | some x => x.delta
  | none => noFlags

/-- FLAGS after one transaction on FLAGS = f: cleared by CLRFLAGS (R198), else f with what the transaction raised (R196). -/
def flagsAfter (f : FlagSet) (r : Request) : FlagSet := if decode r = .clrflags then noFlags else f ||| raised r

/-- An operation ends with result w and delta d: FLAGS has gained d, the response says so, err is 0, and nothing else has
changed (R195). -/
def Completes (i : Instr) (s : State) (w : Word) (d : FlagSet) : Prop :=
  exec i s = .next { flags := s.flags ||| d, pending := s.pending,
                     response := some { result := w, delta := d, flags := s.flags ||| d, err := false } }

/-! ### Exact values (R9, R80), under the default parameters -/

/-- The magnitude of a word (R80): zero for exponent field 0, else (2^23 + f) · 2^(e − 150). -/
noncomputable def wordMag (p : Word) : ℝ :=
  if expField p = 0 then 0 else (2 ^ 23 + ((fracField p).toNat : ℝ)) * 2 ^ (((expField p).toNat : ℤ) - 150)

/-- (−1)^s · y -/
def signed (s : Bool) (y : ℝ) : ℝ := if s then -y else y

/-- The signed value of a word (R12). -/
noncomputable def wordValue (p : Word) : ℝ := signed (signBit p) (wordMag p)

/-- MAXMAG = (2^24 − 1) · 2^105 (R7). -/
def maxMagnitude : ℝ := (2 ^ 24 - 1) * 2 ^ 105

/-- MIN_NORMAL = 2^−126 (R7). -/
noncomputable def leastNormal : ℝ := 2 ^ (-126 : ℤ)

/-- The representable set (R109). -/
def Representable (v : ℝ) : Prop :=
  ∃ e f : ℕ, 1 ≤ e ∧ e ≤ 255 ∧ f < 2 ^ 23 ∧ v = (2 ^ 23 + (f : ℝ)) * 2 ^ ((e : ℤ) - 150)

/-- The signed zero (R106). -/
def signedZero (s : Bool) : Word := if s then 0x80000000#32 else 0x00000000#32

/-- The clamp word (R105). -/
def clampWord (s : Bool) : Word := if s then 0xFFFFFFFF#32 else 0x7FFFFFFF#32

/-- What RoundPack makes of an exact result of sign s and magnitude y > 0 (R104 to R106, R109): the clamp word with O above
MAXMAG, the signed zero with U below MIN_NORMAL, and between them, with no flag, the word of sign s and of the greatest
representable magnitude not above y. -/
def PacksTo (s : Bool) (y : ℝ) (w : Word) (d : FlagSet) : Prop :=
  (maxMagnitude < y ∧ w = clampWord s ∧ d = 0b001#3) ∨
  (y < leastNormal ∧ w = signedZero s ∧ d = 0b010#3) ∨
  (leastNormal ≤ y ∧ y ≤ maxMagnitude ∧ d = 0b000#3 ∧ signBit w = s ∧ expField w ≠ 0 ∧
    wordMag w ≤ y ∧ ∀ v, Representable v → v ≤ y → v ≤ wordMag w)

/-- What a sum's exact value r makes (R112): a nonzero r packs with its own sign; an exact zero is −0 where both addends are
negative zeros and +0 otherwise, with no flag. -/
def SumPacksTo (r : ℝ) (bothNegativeZero : Prop) (w : Word) (d : FlagSet) : Prop :=
  (r < 0 ∧ PacksTo true (-r) w d) ∨
  (0 < r ∧ PacksTo false r w d) ∨
  (r = 0 ∧ d = 0b000#3 ∧ (bothNegativeZero → w = 0x80000000#32) ∧ (¬bothNegativeZero → w = 0x00000000#32))

/-- The magnitude of the exact result that an operation compares with the thresholds (R211): none for the operations whose
result is always in range, and none for a division by zero. -/
noncomputable def exactMagnitude : Instr → Option ℝ
  | .add a b => some |wordValue a + wordValue b|
  | .sub a b => some |wordValue a - wordValue b|
  | .mul a b => some (wordMag a * wordMag b)
  | .div a b => if wordMag b = 0 then none else some (wordMag a / wordMag b)
  | .madd a b c => some |wordValue a * wordValue b + wordValue c|
  | .msub a b c => some |wordValue c - wordValue a * wordValue b|
  | .rcp a => if wordMag a = 0 then none else some (1 / wordMag a)
  | .sqrt _ => none
  | .rsqrt _ => none
  | .classify _ => none
  | .rdflags => none
  | .clrflags => none
  | .reserved _ => none

/-- The operation divides a nonzero value by a zero-class operand (R211's second to fourth rows). -/
def DividesByZero (i : Instr) : Prop :=
  (∃ a b, i = .div a b ∧ wordMag a ≠ 0 ∧ wordMag b = 0) ∨ (∃ a, (i = .rcp a ∨ i = .rsqrt a) ∧ wordMag a = 0)

/-- The operation is invalid (R211's last three rows): 0 / 0, or a root of a negative nonzero-class operand. -/
def IsInvalid (i : Instr) : Prop :=
  (∃ a b, i = .div a b ∧ wordMag a = 0 ∧ wordMag b = 0) ∨
    (∃ a, (i = .sqrt a ∨ i = .rsqrt a) ∧ wordMag a ≠ 0 ∧ signBit a = true)

/-- The real value of an exact magnitude of the machine. -/
noncomputable def Mag.val (x : Mag) : ℝ := (x.num : ℝ) / (x.den : ℝ)

/-- The real value of an exact result of the machine. -/
noncomputable def Exact.val : Exact → ℝ
  | .rat x => x.val
  | .root x => Real.sqrt x.val

/-- The denominator of an exact result is positive, as it is in every one the operations build. -/
def Exact.proper : Exact → Prop
  | .rat x => 0 < x.den
  | .root x => 0 < x.den

end Sys2Proof.Machine
end

