-- ==== Sys2Proof/Certificates/Slice0/Obligations.lean ====
section
/-! DEFINITION. The statements for the provers. Each docstring names the rule it formalises. A word literal is an operand or result
word; 0b001, 0b010, 0b100 are the flags O, U, I. -/

open Sys2Proof Sys2Proof.Machine

/-! ### Encoding -/

/-- R56, R68: packing an instruction's request into REQ and decoding it, as a request and as a table word of 13 bytes, gives the
instruction back, with every operand at every value. -/
def Obligations.DecodeInvertsEncode : Prop :=
  ∀ i : Instr, i.wellFormed = true →
    decode (unpackRequest (packRequest (encode i))) = i ∧
      decodeTableWord 104 (packRequest (encode i)).toNat = some i

/-- R57, R58: what each op code reads. Encoding a decoded request keeps the op field and exactly the operands of the op map's
column 'operands read'; the decoded instruction is well formed. That the encoder writes 0 in every other operand word (the 'else
0' clauses) is the model's deduction, log entry 9, from 95_test_vectors.md section 3: "Operands the operation does not read are
0." -/
def Obligations.EncodeOfDecodeKeepsReadOperands : Prop :=
  ∀ r : Request, (decode r).wellFormed = true ∧
    (encode (decode r)).op = r.op ∧
    (encode (decode r)).a = (if r.op.toNat ≤ 9 then r.a else 0) ∧
    (encode (decode r)).b = (if r.op.toNat ≤ 5 then r.b else 0) ∧
    (encode (decode r)).c = (if r.op.toNat = 4 ∨ r.op.toNat = 5 then r.c else 0)

/-- Words of the REQ columns of 95_test_vectors.md section 3 decode to the operations beside them. -/
def Obligations.SpecWordsDecode : Prop :=
  decodeTableWord 104 0x03F8000003F80000000000000 = some (.add 0x3F800000 0x3F800000) ∧
  decodeTableWord 104 0x27F0000007F00000000000000 = some (.mul 0x7F000000 0x7F000000) ∧
  decodeTableWord 104 0x3800000000000000000000000 = some (.div 0x80000000 0x00000000) ∧
  decodeTableWord 104 0x43F8000013F800001BF800002 = some (.madd 0x3F800001 0x3F800001 0xBF800002) ∧
  decodeTableWord 104 0x6C08000000000000000000000 = some (.sqrt 0xC0800000) ∧
  decodeTableWord 104 0x7800000000000000000000000 = some (.rsqrt 0x80000000) ∧
  decodeTableWord 104 0x8404000000000000000000000 = some (.rcp 0x40400000) ∧
  decodeTableWord 104 0x97FFFFFFF0000000000000000 = some (.classify 0x7FFFFFFF) ∧
  decodeTableWord 104 0xA000000000000000000000000 = some .rdflags ∧
  decodeTableWord 104 0xB000000000000000000000000 = some .clrflags ∧
  decodeTableWord 104 0xC000000000000000000000000 = some (.reserved 0xC)

/-- 30_encoding.md's preface: exactly one row of the table covers each of the 2^100 requests, and it is the row of the decoded
instruction. -/
def Obligations.ExactlyOneTableRowCovers : Prop :=
  ∀ q : BitVec 100, ∃ row ∈ opcodeTable, row.covers q = true ∧ row.mnemonic = mnemonic (decode (unpackRequest q)) ∧
    ∀ row' ∈ opcodeTable, row'.covers q = true → row' = row

/-- R58: two requests that agree on the op code and on the operands the op map lists as read take the same step. -/
def Obligations.UnreadOperandsIgnored : Prop :=
  ∀ (r r' : Request) (f : FlagSet) (rest : List Input) (x : Option Response),
    r.op = r'.op → (r.op.toNat ≤ 9 → r.a = r'.a) → (r.op.toNat ≤ 5 → r.b = r'.b) →
    (r.op.toNat = 4 ∨ r.op.toNat = 5 → r.c = r'.c) →
    step { flags := f, pending := .request r :: rest, response := x } =
      step { flags := f, pending := .request r' :: rest, response := x }

/-- R13, in the model's reading of a raw number (log entry 10): a number is refused by name exactly when it has a bit above
REQ[99]. -/
def Obligations.OverwideWordsRefused : Prop :=
  ∀ nbits w : Nat, decodeBits nbits w = .error .invalidOperandWidth ↔ 2 ^ 100 ≤ w % 2 ^ nbits

/-- R66: the text of a fixture row reads back as the row, for every operation that has a mnemonic, every result and every flag
set; an issue text reads back as its operation. The form written (single spaces, upper case, no prefix, the order O, U, I) is the
model's choice within R66's grammar, log entry 16. -/
def Obligations.FixtureTextReadsBack : Prop :=
  ∀ f : Fixture, (∀ op, f.instr ≠ .reserved op) →
    parseIssue (issueText f.instr) = some f.instr ∧ parseFixture (fixtureText f) = some f

/-! ### The step -/

/-- R195: a step whose oldest input is a request runs the decoded instruction on the state without that input; nothing else is
added around it. -/
def Obligations.StepRunsDecodedInstruction : Prop :=
  ∀ (s : State) (r : Request) (rest : List Input), s.pending = .request r :: rest →
    step s = exec (decode r) { s with pending := rest }

/-- A table word placed by withFetchWord is the very next instruction to run, on the state as it was (log entry 1). -/
def Obligations.FetchWordRunsNext : Prop :=
  ∀ (s : State) (nbits w : Nat) (i : Instr), decodeTableWord nbits w = some i →
    step (s.withFetchWord nbits w) = exec i s

/-- R30: after reset each of O, U and I is 0. -/
def Obligations.ResetLeavesNoFlags : Prop :=
  State.reset.flags.getLsbD 0 = false ∧ State.reset.flags.getLsbD 1 = false ∧ State.reset.flags.getLsbD 2 = false

/-- R235, R237, with resets held as inputs (log entry 5): a reset before a transaction makes it see FLAGS = 0; a reset after one clears its flags; a transaction cut short
by a reset leaves no result and no FLAGS change, so that only the reset shows. -/
def Obligations.ResetOrdersWithTransactions : Prop :=
  ∀ (f : FlagSet) (x : Option Response) (r : Request) (rest : List Input),
    Host.Core.run Sys2Proof.core 2 { flags := f, pending := .reset :: .request r :: rest, response := x : State } =
      exec (decode r) { flags := 0b000#3, pending := rest, response := none } ∧
    Host.Core.run Sys2Proof.core 2 { flags := f, pending := .request r :: .reset :: rest, response := x : State } =
      .next { flags := 0b000#3, pending := rest, response := none : State } ∧
    step { flags := f, pending := .resetDuring r :: rest, response := x } =
      .next { flags := 0b000#3, pending := rest, response := none }

/-- The model's choice (log entry 3): with nothing issued a step leaves FLAGS and shows no response. -/
def Obligations.IdleStepKeepsFlags : Prop :=
  ∀ s : State, s.pending = [] → step s = .next { s with response := none }

/-- R14, R210: every instruction, in every state, and every step of every state, answers a next state: no trap, fault or
refusal exists. R14 and R210 say so of the operations. That it covers the reserved op codes, which the spec recommends refusing
(log entry 4), a step with nothing issued (log entry 3) and an empty type of faults (log entry 12) is the model's. -/
def Obligations.EverythingCompletes : Prop :=
  (∀ (i : Instr) (s : State), ∃ t, exec i s = .next t) ∧ (∀ s : State, ∃ t, step s = .next t)

/-! ### The flag register -/

/-- R196: every operation but CLRFLAGS and the reserved codes ORs its delta into FLAGS, and its response carries the delta, the new
FLAGS and err = 0. -/
def Obligations.DeltasAccumulate : Prop :=
  ∀ (i : Instr) (s : State), i ≠ .clrflags → (∀ op, i ≠ .reserved op) → ∃ w d, Completes i s w d

/-- R197: RDFLAGS, op code 0xA whatever the operands, answers FLAGS in bits 2:0 with bits 31:3 zero, raises nothing and leaves FLAGS. -/
def Obligations.RdflagsReadsFlags : Prop :=
  (∀ r : Request, r.op = 0xA → decode r = .rdflags) ∧ ∀ s : State, exec .rdflags s =
    .next { s with response := some { result := 0#29 ++ s.flags, delta := 0b000, flags := s.flags, err := false } }

/-- R198: CLRFLAGS, op code 0xB whatever the operands, answers 0, raises nothing and clears all three flags. -/
def Obligations.ClrflagsClears : Prop :=
  (∀ r : Request, r.op = 0xB → decode r = .clrflags) ∧ ∀ s : State, exec .clrflags s =
    .next { s with flags := 0b000, response := some { result := 0, delta := 0b000, flags := 0b000, err := false } }

/-- R199: a reserved op code answers 0 with err = 1 and leaves FLAGS; decoding op 0xC to 0xF gives one. That the model gives this
response rather than refusing is its choice (log entry 4). -/
def Obligations.ReservedCodesAnswerErr : Prop :=
  ∀ (r : Request) (s : State), 0xC ≤ r.op.toNat → exec (decode r) s =
    .next { s with response := some { result := 0, delta := 0b000, flags := s.flags, err := true } }

/-- R59, R212: err is 1 exactly for a reserved op code. -/
def Obligations.ErrOnlyForReservedCodes : Prop :=
  ∀ (i : Instr) (s : State) (x : Response), responseOf i s = some x → (x.err = true ↔ ∃ op, i = .reserved op)

/-- R214: a transaction raises at most one flag. -/
def Obligations.AtMostOneFlagRaised : Prop :=
  ∀ (i : Instr) (s : State) (x : Response), responseOf i s = some x →
    x.delta = 0b000 ∨ x.delta = 0b001 ∨ x.delta = 0b010 ∨ x.delta = 0b100

/-- R211: the causes are all the causes. O is raised exactly when the exact result exceeds MAXMAG or a nonzero value is divided by
a zero; U exactly when the exact result is nonzero and below MIN_NORMAL; I exactly for 0 / 0 and the root of a negative. -/
def Obligations.FlagsHaveExactlyTheirCauses : Prop :=
  ∀ (i : Instr) (s : State) (x : Response), responseOf i s = some x →
    (x.delta.getLsbD 0 = true ↔ (∃ y, exactMagnitude i = some y ∧ maxMagnitude < y) ∨ DividesByZero i) ∧
    (x.delta.getLsbD 1 = true ↔ ∃ y, exactMagnitude i = some y ∧ 0 < y ∧ y < leastNormal) ∧
    (x.delta.getLsbD 2 = true ↔ IsInvalid i)

/-- R15: the result, delta and err of every operation but RDFLAGS are the same in any two states; only FLAGS' update sees the old
FLAGS. -/
def Obligations.OperatorsIgnoreState : Prop :=
  ∀ (i : Instr) (s s' : State) (x x' : Response), i ≠ .rdflags →
    responseOf i s = some x → responseOf i s' = some x' →
    x.result = x'.result ∧ x.delta = x'.delta ∧ x.err = x'.err

/-- The frame of every instruction (R22, R23, R29): what is issued stays issued, FLAGS becomes 0 by CLRFLAGS and otherwise only
gains the delta the response shows, and the response's copy is the new FLAGS. -/
def Obligations.InstructionFrame : Prop :=
  ∀ (i : Instr) (s t : State), exec i s = .next t →
    t.pending = s.pending ∧ ∃ x, t.response = some x ∧ x.flags = t.flags ∧
      (i = .clrflags → t.flags = 0b000) ∧ (i ≠ .clrflags → t.flags = s.flags ||| x.delta)

/-- R46: after a clear (any CLRFLAGS request, a reset, or a reset that cuts a transaction short) and then any transactions without
another CLRFLAGS, any RDFLAGS request answers exactly the flags that one of them raised, whatever FLAGS was before, whatever words
the unread operands hold and whatever is issued later. That requests and resets stand in State.pending (log entries 1 and 5) and
the response in State.response (log entry 2), and that a reserved op code among the transactions is accepted (log entry 4), is the
model's. -/
def Obligations.ReadShowsFlagsSinceClear : Prop :=
  ∀ (f : FlagSet) (x : Option Response) (clear : Input) (rs : List Request) (read : Request)
    (rest : List Input),
    (∃ q, clear = .request q ∧ decode q = .clrflags) ∨ clear = .reset ∨ (∃ q, clear = .resetDuring q) →
    decode read = .rdflags →
    (∀ r ∈ rs, decode r ≠ .clrflags) →
    ∃ t : State, ∃ y : Response,
      Host.Core.run Sys2Proof.core (rs.length + 2)
        { flags := f
          pending := clear :: (rs.map .request ++ .request read :: rest)
          response := x : State } = .next t ∧
      t.pending = rest ∧ t.response = some y ∧
      ∀ k < 32, y.result.getLsbD k = true ↔ k < 3 ∧ ∃ r ∈ rs, (raised r).getLsbD k = true

/-- R196, R198: over any sequence of transactions, clears among them, FLAGS ends as the fold of one transaction's effect: cleared by
a CLRFLAGS, else ORed with what the transaction raised. So with no CLRFLAGS in it FLAGS ends as the old FLAGS with every raised
flag ORed in, and after the last CLRFLAGS as what was raised since. That the requests stand in State.pending (log entry 1) and
that a reserved op code among them is accepted (log entry 4) is the model's. -/
def Obligations.SequencesAccumulateFlags : Prop :=
  ∀ (f : FlagSet) (x : Option Response) (rs : List Request) (rest : List Input),
    ∃ t : State,
      Host.Core.run Sys2Proof.core rs.length
        { flags := f, pending := rs.map .request ++ rest, response := x : State } = .next t ∧
      t.pending = rest ∧ t.flags = rs.foldl flagsAfter f ∧
      ((∀ r ∈ rs, decode r ≠ .clrflags) → t.flags = rs.foldl (fun acc r => acc ||| raised r) f) ∧
      ∀ (before since : List Request) (clear : Request), rs = before ++ clear :: since → decode clear = .clrflags →
        (∀ r ∈ since, decode r ≠ .clrflags) → t.flags = since.foldl (fun acc r => acc ||| raised r) 0b000#3

/-! ### Invariants of runs -/

/-- Whatever the state, the state after a step satisfies the invariant: its response, if any, agrees with FLAGS (R55, R59, R196,
R214). So every step keeps the invariant. That the response stands in State is the model's choice (log entry 2). -/
def Obligations.StepEstablishesAgreement : Prop :=
  ∀ s t : State, step s = .next t → t.inv = true

/-- No run of any length from a state that satisfies the invariant stops (R14, R210), and the invariant holds where it ends (R55,
R59, R196, R214). That reserved op codes are accepted (log entry 4), that a step with nothing issued idles (log entry 3), that no
fault exists (log entry 12) and that the invariant reads State.response (log entry 2) is the model's. -/
def Obligations.RunsNeverStopAndKeepAgreement : Prop :=
  ∀ (n : Nat) (s : State), s.inv = true →
    ∃ t : State, Host.Core.run Sys2Proof.core n s = .next t ∧ t.inv = true

/-- The invariant holds at reset, because no response is shown there: a response is an output and not state (R29), and that the
model's field State.response is none at State.reset is its choice, log entry 2. -/
def Obligations.ResetAgrees : Prop := State.reset.inv = true

/-- R29, in the model's field State.response (log entry 2): the response shown is an output only, and no step depends on the one
before. -/
def Obligations.ShownResponseIgnored : Prop :=
  ∀ (s : State) (x : Option Response), step { s with response := x } = step s

/-- R220, R47, in the model's list of contexts (log entry 13): a step of one context is that context's own step and leaves every other context as it was. -/
def Obligations.ContextsShareNothing : Prop :=
  ∀ (cs : List State) (n : Fin cs.length), ∃ cs' t, stepContext cs n = .next cs' ∧ cs'.length = cs.length ∧
    step cs[n] = .next t ∧ cs'[(n : Nat)]? = some t ∧ ∀ m : Nat, m ≠ n → cs'[m]? = cs[m]?

/-- R220, in the model's list of contexts (log entry 13): steps of two different contexts commute. -/
def Obligations.ContextStepsCommute : Prop :=
  ∀ (cs : List State) (n m : Fin cs.length), n ≠ m →
    ∃ (cs₁ cs₂ cs' : List State) (h₁ : cs.length = cs₁.length) (h₂ : cs.length = cs₂.length),
      stepContext cs n = .next cs₁ ∧ stepContext cs₁ (m.cast h₁) = .next cs' ∧
      stepContext cs m = .next cs₂ ∧ stepContext cs₂ (n.cast h₂) = .next cs'

/-! ### The classifier -/

/-- R86: CLASS, op code 0x9 reading a alone, answers the class code in bits 2:0, 8 more for a denormal, and raises nothing. -/
def Obligations.ClassifyAnswersClassCode : Prop :=
  (∀ r : Request, r.op = 0x9 → decode r = .classify r.a) ∧
  ∀ (a : Word) (s : State), Completes (.classify a) s
    (if expField a = 0 then
      (if fracField a = 0 then (if signBit a then 0x1#32 else 0x0#32) else (if signBit a then 0x9#32 else 0x8#32))
     else if expField a = 255 then (if signBit a then 0x4#32 else 0x3#32)
     else 0x2#32) 0b000

/-- R87: which words each class holds. -/
def Obligations.ClassesAreWordRanges : Prop :=
  ∀ p : Word,
    (valueClass p = .positiveZero ↔ p.toNat ≤ 0x007FFFFF) ∧
    (valueClass p = .negativeZero ↔ 0x80000000 ≤ p.toNat ∧ p.toNat ≤ 0x807FFFFF) ∧
    (valueClass p = .normal ↔ (0x00800000 ≤ p.toNat ∧ p.toNat ≤ 0x7F7FFFFF) ∨
      (0x80800000 ≤ p.toNat ∧ p.toNat ≤ 0xFF7FFFFF)) ∧
    (valueClass p = .maxMagnitudePositive ↔ 0x7F800000 ≤ p.toNat ∧ p.toNat ≤ 0x7FFFFFFF) ∧
    (valueClass p = .maxMagnitudeNegative ↔ 0xFF800000 ≤ p.toNat)

/-- R84: Class and Decode agree. -/
def Obligations.ClassAgreesWithValue : Prop :=
  ∀ p : Word,
    (isZeroClass p = true ↔ (decodeValue config p).mag.val = 0) ∧
    (valueClass p = .normal ↔
      2 ^ (-126 : ℤ) ≤ (decodeValue config p).mag.val ∧ (decodeValue config p).mag.val ≤ (2 ^ 24 - 1) * 2 ^ 104) ∧
    (valueClass p = .maxMagnitudePositive ∨ valueClass p = .maxMagnitudeNegative ↔
      2 ^ 128 ≤ (decodeValue config p).mag.val ∧ (decodeValue config p).mag.val ≤ maxMagnitude) ∧
    (valueClass p = .positiveZero ∨ valueClass p = .maxMagnitudePositive → (decodeValue config p).sign = false) ∧
    (valueClass p = .negativeZero ∨ valueClass p = .maxMagnitudeNegative → (decodeValue config p).sign = true)

/-- R80: the machine's Decode gives bit 31 and the exact value of the word. -/
def Obligations.DecodeGivesExactValue : Prop :=
  ∀ p : Word, (decodeValue config p).sign = signBit p ∧ (decodeValue config p).mag.val = wordMag p

/-- R7: under MAXMAG_OPERAND_MODE = CANONICAL every word with exponent field 255 has the value MAXMAG, and every other word the
value it has under EXTENDED. -/
def Obligations.CanonicalOperandsAreMaxMag : Prop :=
  ∀ p : Word, (decodeValue { config with operandMode := .canonical } p).sign = signBit p ∧
    (decodeValue { config with operandMode := .canonical } p).mag.val =
      if expField p = 255 then maxMagnitude else wordMag p

/-! ### Rounding -/

/-- R101: the intermediate of an exact y in range is exact: E = floor(log2 y), M is normalised, and
y = (M + G/2 + R/4 + ε) · 2^(E − 23) with 0 ≤ ε < 1/4 and S = 1 exactly when ε > 0. -/
def Obligations.IntermediateIsExact : Prop :=
  ∀ y : Exact, y.proper → leastNormal ≤ y.val → y.val ≤ maxMagnitude →
    (intermediate y).exponent = ⌊Real.logb 2 y.val⌋ ∧
    -126 ≤ (intermediate y).exponent ∧ (intermediate y).exponent ≤ 128 ∧
    (intermediate y).sig.getLsbD 23 = true ∧
    ∃ ε : ℝ, 0 ≤ ε ∧ ε < 1 / 4 ∧ ((intermediate y).sticky = true ↔ 0 < ε) ∧
      y.val = (((intermediate y).sig.toNat : ℝ) + (if (intermediate y).guard then 1 / 2 else 0) +
        (if (intermediate y).round then 1 / 4 else 0) + ε) * 2 ^ ((intermediate y).exponent - 23)

/-- R109: under RZ an in-range result is the greatest representable magnitude not above y, with no flag; so a representable y gives
its own word, the magnitude is monotone in y, and the sign is s for every y. -/
def Obligations.RoundPackTruncates : Prop :=
  (∀ (s : Bool) (y : Exact), y.proper → leastNormal ≤ y.val → y.val ≤ maxMagnitude →
    (roundPack config s y).delta = 0b000 ∧ Representable (wordMag (roundPack config s y).result) ∧
    wordMag (roundPack config s y).result ≤ y.val ∧
    (∀ v, Representable v → v ≤ y.val → v ≤ wordMag (roundPack config s y).result)) ∧
  (∀ (s : Bool) (y : Exact), y.proper → Representable y.val →
    wordMag (roundPack config s y).result = y.val ∧ (roundPack config s y).delta = 0b000) ∧
  (∀ (s : Bool) (y z : Exact), y.proper → z.proper → 0 < y.val → y.val ≤ z.val →
    wordMag (roundPack config s y).result ≤ wordMag (roundPack config s z).result) ∧
  (∀ (s : Bool) (y : Exact), y.proper → 0 < y.val → signBit (roundPack config s y).result = s)

/-- R105: above MAXMAG the result is the clamp word of the sign, with O. -/
def Obligations.RoundPackClampsOverflow : Prop :=
  ∀ (s : Bool) (y : Exact), y.proper → maxMagnitude < y.val →
    roundPack config s y = { result := if s then 0xFFFFFFFF else 0x7FFFFFFF, delta := 0b001 }

/-- R106: below MIN_NORMAL the result is the zero of the sign, with U. -/
def Obligations.RoundPackFlushesUnderflow : Prop :=
  ∀ (s : Bool) (y : Exact), y.proper → 0 < y.val → y.val < 2 ^ (-126 : ℤ) →
    roundPack config s y = { result := if s then 0x80000000 else 0x00000000, delta := 0b010 }

/-- R107: every word RoundPack returns is a signed zero with U, a clamp word with O, or a word of the sign with exponent field 1 to
255 and no flag; the pattern of exponent 255 and fraction 0 never comes with O, and comes with no flag for
2^128 ≤ y < 2^128 + 2^105. -/
def Obligations.RoundPackResultKinds : Prop :=
  (∀ (s : Bool) (y : Exact), y.proper → 0 < y.val →
    ((roundPack config s y).result = signedZero s ∧ (roundPack config s y).delta = 0b010) ∨
    ((roundPack config s y).result = clampWord s ∧ (roundPack config s y).delta = 0b001) ∨
    (1 ≤ (expField (roundPack config s y).result).toNat ∧ signBit (roundPack config s y).result = s ∧
      (roundPack config s y).delta = 0b000)) ∧
  (∀ (s : Bool) (y : Exact), y.proper → 0 < y.val → (roundPack config s y).delta = 0b001 →
    (roundPack config s y).result ≠ 0x7F800000 ∧ (roundPack config s y).result ≠ 0xFF800000) ∧
  (∀ (s : Bool) (y : Exact), y.proper → 2 ^ 128 ≤ y.val → y.val < 2 ^ 128 + 2 ^ 105 →
    roundPack config s y = { result := if s then 0xFF800000 else 0x7F800000, delta := 0b000 })

/-- R108: with a replacement policy that meets the contract and carries, the exponent goes up by one and the mantissa is 0, or the
result is the clamp word with O where the new exponent exceeds 128. RZ never carries. -/
def Obligations.CarryGoesIntoExponent : Prop :=
  (∀ (p : RoundPolicy) (s : Bool) (y : Exact), p.Contract → y.proper → leastNormal ≤ y.val → y.val ≤ maxMagnitude →
    (p { sign := s, sig := (intermediate y).sig, guard := (intermediate y).guard, round := (intermediate y).round,
         sticky := (intermediate y).sticky }).carry = true →
    roundPack { config with roundPolicy := p } s y =
      if (intermediate y).exponent + 1 > 128 then { result := clampWord s, delta := 0b001 }
      else { result := packWord s (BitVec.ofInt 8 ((intermediate y).exponent + 1 + 127)) 0, delta := 0b000 }) ∧
  (∀ r : RoundInput, (config.roundPolicy r).carry = false)

/-- R112: AddCore of any two exact signed magnitudes is their exact sum packed once, with the zero-sign rule. -/
def Obligations.AddCorePacksExactSum : Prop :=
  ∀ x y : Decoded, 0 < x.mag.den → 0 < y.mag.den →
    SumPacksTo (signed x.sign x.mag.val + signed y.sign y.mag.val)
      (x.mag.val = 0 ∧ y.mag.val = 0 ∧ x.sign = true ∧ y.sign = true)
      (addCore config x y).result (addCore config x y).delta

/-! ### The operations, against the exact real result

Each statement's first clause is the rule's encoding and operands. -/

/-- R120: ADD completes with the exact sum packed once. -/
def Obligations.AddPacksExactSum : Prop :=
  (∀ r : Request, r.op = 0x0 → decode r = .add r.a r.b) ∧
  ∀ (a b : Word) (s : State), ∃ w d, Completes (.add a b) s w d ∧
    SumPacksTo (wordValue a + wordValue b)
      (wordMag a = 0 ∧ wordMag b = 0 ∧ signBit a = true ∧ signBit b = true) w d

/-- R121: SUB completes with the exact difference packed once. -/
def Obligations.SubPacksExactDifference : Prop :=
  (∀ r : Request, r.op = 0x1 → decode r = .sub r.a r.b) ∧
  ∀ (a b : Word) (s : State), ∃ w d, Completes (.sub a b) s w d ∧
    SumPacksTo (wordValue a - wordValue b)
      (wordMag a = 0 ∧ wordMag b = 0 ∧ signBit a = true ∧ signBit b = false) w d

/-- R135: MUL completes with the exact product packed once, or a signed zero with no flag where an operand is zero. -/
def Obligations.MulPacksExactProduct : Prop :=
  (∀ r : Request, r.op = 0x2 → decode r = .mul r.a r.b) ∧
  ∀ (a b : Word) (s : State), ∃ w d, Completes (.mul a b) s w d ∧
    (wordMag a = 0 ∨ wordMag b = 0 → w = signedZero (signBit a ^^ signBit b) ∧ d = 0b000) ∧
    (wordMag a ≠ 0 ∧ wordMag b ≠ 0 → PacksTo (signBit a ^^ signBit b) (wordMag a * wordMag b) w d)

/-- R145, R146: DIV completes with the substitution table's rows for zero operands and the exact quotient packed once
otherwise. -/
def Obligations.DivPacksExactQuotient : Prop :=
  (∀ r : Request, r.op = 0x3 → decode r = .div r.a r.b) ∧
  ∀ (a b : Word) (s : State), ∃ w d, Completes (.div a b) s w d ∧
    (wordMag a ≠ 0 ∧ wordMag b = 0 → w = clampWord (signBit a ^^ signBit b) ∧ d = 0b001) ∧
    (wordMag a = 0 ∧ wordMag b = 0 → w = clampWord (signBit a ^^ signBit b) ∧ d = 0b100) ∧
    (wordMag a = 0 ∧ wordMag b ≠ 0 → w = signedZero (signBit a ^^ signBit b) ∧ d = 0b000) ∧
    (wordMag a ≠ 0 ∧ wordMag b ≠ 0 → PacksTo (signBit a ^^ signBit b) (wordMag a / wordMag b) w d)

/-- R160: MADD completes with the exact a·b + c packed once; the product is neither rounded nor flagged. -/
def Obligations.MaddPacksExactResult : Prop :=
  (∀ r : Request, r.op = 0x4 → decode r = .madd r.a r.b r.c) ∧
  ∀ (a b c : Word) (s : State), ∃ w d, Completes (.madd a b c) s w d ∧
    SumPacksTo (wordValue a * wordValue b + wordValue c)
      (wordMag a * wordMag b = 0 ∧ wordMag c = 0 ∧ (signBit a ^^ signBit b) = true ∧ signBit c = true) w d

/-- R161: MSUB completes with the exact c − a·b packed once. -/
def Obligations.MsubPacksExactResult : Prop :=
  (∀ r : Request, r.op = 0x5 → decode r = .msub r.a r.b r.c) ∧
  ∀ (a b c : Word) (s : State), ∃ w d, Completes (.msub a b c) s w d ∧
    SumPacksTo (wordValue c - wordValue a * wordValue b)
      (wordMag a * wordMag b = 0 ∧ wordMag c = 0 ∧ (signBit a ^^ signBit b) = false ∧ signBit c = true) w d

/-- R175: SQRT completes with a zero of a's sign for a zero; else with the truncated root of the magnitude, positive, and I exactly
where a is negative. -/
def Obligations.SqrtPacksExactRoot : Prop :=
  (∀ r : Request, r.op = 0x6 → decode r = .sqrt r.a) ∧
  ∀ (a : Word) (s : State), ∃ w d, Completes (.sqrt a) s w d ∧
    (wordMag a = 0 → w = signedZero (signBit a) ∧ d = 0b000) ∧
    (wordMag a ≠ 0 → PacksTo false (Real.sqrt (wordMag a)) w 0b000 ∧ d = if signBit a then 0b100 else 0b000)

/-- R176: RSQRT completes with the clamp word of a's sign and O for a zero; else with the truncated reciprocal root of the
magnitude, positive, and I exactly where a is negative. -/
def Obligations.RsqrtPacksExactReciprocalRoot : Prop :=
  (∀ r : Request, r.op = 0x7 → decode r = .rsqrt r.a) ∧
  ∀ (a : Word) (s : State), ∃ w d, Completes (.rsqrt a) s w d ∧
    (wordMag a = 0 → w = clampWord (signBit a) ∧ d = 0b001) ∧
    (wordMag a ≠ 0 → PacksTo false (1 / Real.sqrt (wordMag a)) w 0b000 ∧ d = if signBit a then 0b100 else 0b000)

/-- R177: RCP completes with the clamp word of a's sign and O for a zero, else with the exact reciprocal packed once; it is DIV
with dividend 1.0 in result and delta. -/
def Obligations.RcpPacksExactReciprocal : Prop :=
  (∀ r : Request, r.op = 0x8 → decode r = .rcp r.a) ∧
  ∀ (a : Word) (s : State), (∃ w d, Completes (.rcp a) s w d ∧
    (wordMag a = 0 → w = clampWord (signBit a) ∧ d = 0b001) ∧
    (wordMag a ≠ 0 → PacksTo (signBit a) (1 / wordMag a) w d)) ∧
    exec (.rcp a) s = exec (.div 0x3F800000 a) s

/-- R178: the root and the reciprocal root of an in-range magnitude lie in range, so RoundPack raises nothing for them. -/
def Obligations.RootsStayInRange : Prop :=
  ∀ (x : Mag) (s : Bool), 0 < x.den → leastNormal ≤ x.val → x.val ≤ maxMagnitude →
    2 ^ (-63 : ℤ) ≤ Real.sqrt x.val ∧ Real.sqrt x.val < 2 ^ 65 ∧
    2 ^ (-65 : ℤ) < 1 / Real.sqrt x.val ∧ 1 / Real.sqrt x.val ≤ 2 ^ 63 ∧
    (roundPack config s (.root x)).delta = 0b000 ∧ (roundPack config s (.root x.inv)).delta = 0b000

/-- R122: adding a zero of either sign keeps every Normal and MaxMagnitude word and raises nothing; a negative denormal plus +0
is +0. -/
def Obligations.AddingZeroKeepsWord : Prop :=
  (∀ (p : Word) (s : State), isZeroClass p = false →
    Completes (.add p 0x00000000) s p 0b000 ∧ Completes (.add p 0x80000000) s p 0b000) ∧
  (∀ s : State, Completes (.add 0x80000001 0x00000000) s 0x00000000 0b000)

/-- R120 and R135, corner cases: ADD and MUL do not depend on operand order. -/
def Obligations.AddAndMulCommute : Prop :=
  ∀ (a b : Word) (s : State), exec (.add a b) s = exec (.add b a) s ∧ exec (.mul a b) s = exec (.mul b a) s

/-- R121 and R145, corner cases: x − x = +0 for every x, and x / x = 1.0 for every x of a nonzero class, with no flag. -/
def Obligations.SelfDifferenceAndQuotient : Prop :=
  ∀ (p : Word) (s : State), Completes (.sub p p) s 0x00000000 0b000 ∧
    (isZeroClass p = false → Completes (.div p p) s 0x3F800000 0b000)

/-- R162: the three triples on which MADD differs from MUL then ADD, each with both sides. -/
def Obligations.FusedDiffersFromTwoStep : Prop :=
  ∀ s : State,
    Completes (.madd 0x3F800001 0x3F800001 0xBF800002) s 0x28800000 0b000 ∧
    Completes (.mul 0x3F800001 0x3F800001) s 0x3F800002 0b000 ∧
    Completes (.add 0x3F800002 0xBF800002) s 0x00000000 0b000 ∧
    Completes (.madd 0x7FFFFFFF 0x40000000 0xFFFFFFFF) s 0x7FFFFFFF 0b000 ∧
    Completes (.mul 0x7FFFFFFF 0x40000000) s 0x7FFFFFFF 0b001 ∧
    Completes (.add 0x7FFFFFFF 0xFFFFFFFF) s 0x00000000 0b000 ∧
    Completes (.madd 0x0C800000 0x0C800000 0x3F800000) s 0x3F800000 0b000 ∧
    Completes (.mul 0x0C800000 0x0C800000) s 0x00000000 0b010 ∧
    Completes (.add 0x00000000 0x3F800000) s 0x3F800000 0b000

/-- R104 to R106, R109: what the rules say of an exact result, PacksTo, is exactly what the machine's RoundPack answers, for every
sign and every positive exact magnitude; and the rules leave no choice at any real magnitude, so the statements above that say a
result packs determine the word and the delta. -/
def Obligations.PackedResultIsUnique : Prop :=
  (∀ (s : Bool) (y : Exact) (w : Word) (d : FlagSet), y.proper → 0 < y.val →
    (PacksTo s y.val w d ↔ roundPack config s y = { result := w, delta := d })) ∧
  (∀ (s : Bool) (y : ℝ) (w w' : Word) (d d' : FlagSet), PacksTo s y w d → PacksTo s y w' d' → w = w' ∧ d = d')
end

