-- ==== Sys2Proof/Laws/State.lean ====
section
/-! SUPPORT. What each update of the state leaves in each field, and what each arm of exec and step is. -/

namespace Sys2Proof.Machine

/-! ### Fields after an update -/

@[simp] theorem resetInstance_flags (s : State) : (resetInstance s).flags = config.flagsReset := rfl
@[simp] theorem resetInstance_pending (s : State) : (resetInstance s).pending = s.pending := rfl
@[simp] theorem resetInstance_response (s : State) : (resetInstance s).response = none := rfl

@[simp] theorem abandonTransaction_eq (r : Request) (s : State) : abandonTransaction r s = resetInstance s := rfl

@[simp] theorem idle_flags (s : State) : (idle s).flags = s.flags := rfl
@[simp] theorem idle_pending (s : State) : (idle s).pending = s.pending := rfl
@[simp] theorem idle_response (s : State) : (idle s).response = none := rfl

@[simp] theorem withFetchWord_flags (s : State) (nbits w : Nat) : (s.withFetchWord nbits w).flags = s.flags := rfl
@[simp] theorem withFetchWord_response (s : State) (nbits w : Nat) :
    (s.withFetchWord nbits w).response = s.response := rfl
@[simp] theorem withFetchWord_pending (s : State) (nbits w : Nat) :
    (s.withFetchWord nbits w).pending =
      .request (unpackRequest (BitVec.ofNat 100 (w % 2 ^ nbits))) :: s.pending := rfl

@[simp] theorem reset_flags : State.reset.flags = config.flagsReset := rfl
@[simp] theorem reset_pending : State.reset.pending = [] := rfl
@[simp] theorem reset_response : State.reset.response = none := rfl

@[simp] theorem config_flagsReset : config.flagsReset = 0b000#3 := rfl

/-! ### How a transaction ends -/

theorem answer_eq_next (r : Word) (d f : FlagSet) (e : Bool) (s : State) :
    answer r d f e s =
      .next { flags := f, pending := s.pending, response := some { result := r, delta := d, flags := f, err := e } } := rfl

theorem complete_eq_next (o : OpResult) (s : State) :
    complete o s =
      .next { flags := s.flags ||| o.delta, pending := s.pending,
              response := some { result := o.result, delta := o.delta, flags := s.flags ||| o.delta, err := false } } := rfl

/-! ### The arms -/

section Arms
variable (a b c : Word) (op : BitVec 4) (s : State)

theorem exec_add : exec (.add a b) s = complete (opAdd config a b) s := rfl
theorem exec_sub : exec (.sub a b) s = complete (opSub config a b) s := rfl
theorem exec_mul : exec (.mul a b) s = complete (opMul config a b) s := rfl
theorem exec_div : exec (.div a b) s = complete (opDiv config a b) s := rfl
theorem exec_madd : exec (.madd a b c) s = complete (opMadd config a b c) s := rfl
theorem exec_msub : exec (.msub a b c) s = complete (opMsub config a b c) s := rfl
theorem exec_sqrt : exec (.sqrt a) s = complete (opSqrt config a) s := rfl
theorem exec_rsqrt : exec (.rsqrt a) s = complete (opRsqrt config a) s := rfl
theorem exec_rcp : exec (.rcp a) s = complete (opRcp config a) s := rfl
theorem exec_classify : exec (.classify a) s = complete { result := classWord a, delta := noFlags } s := rfl
theorem exec_rdflags : exec .rdflags s = complete { result := flagsWord s.flags, delta := noFlags } s := rfl
theorem exec_clrflags : exec .clrflags s = answer 0 noFlags noFlags false s := rfl
theorem exec_reserved : exec (.reserved op) s = answer 0 noFlags s.flags true s := rfl

end Arms

/-! ### One step, by the oldest input -/

section Steps
variable (f : FlagSet) (rest : List Input) (x : Option Response) (r : Request)

theorem step_idle : step { flags := f, pending := [], response := x } =
    .next { flags := f, pending := [], response := none } := rfl
theorem step_request : step { flags := f, pending := .request r :: rest, response := x } =
    exec (decode r) { flags := f, pending := rest, response := x } := rfl
theorem step_reset : step { flags := f, pending := .reset :: rest, response := x } =
    .next { flags := config.flagsReset, pending := rest, response := none } := rfl
theorem step_resetDuring : step { flags := f, pending := .resetDuring r :: rest, response := x } =
    .next { flags := config.flagsReset, pending := rest, response := none } := rfl

end Steps

end Sys2Proof.Machine
end

