-- ==== Sys2Proof/Laws/Values.lean ====
section
/-! SUPPORT. What the exact arithmetic of Machine/Operands.lean and Machine/Rounding.lean computes, in real numbers. -/

namespace Sys2Proof.Machine

/-! ### Rational magnitudes -/

namespace Mag

theorem val_ofNat (n : Nat) : (ofNat n).val = n := by simp [ofNat, val]

theorem val_nonneg (x : Mag) : 0 ≤ x.val := by unfold val; positivity

theorem val_mul (x y : Mag) : (x.mul y).val = x.val * y.val := by
  simp only [mul, val, Nat.cast_mul, mul_div_mul_comm]

theorem val_div (x y : Mag) : (x.div y).val = x.val / y.val := by
  simp only [div, val, Nat.cast_mul, div_div_div_eq]

theorem val_inv (x : Mag) : x.inv.val = x.val⁻¹ := by simp only [inv, val, inv_div]

theorem val_scale (x : Mag) (k : Int) : (x.scale k).val = x.val * 2 ^ k := by
  cases k with
  | ofNat n =>
    simp only [scale, val, Nat.cast_mul, Nat.cast_pow, Nat.cast_ofNat, Int.ofNat_eq_natCast, zpow_natCast]
    ring
  | negSucc n =>
    simp only [scale, val, Nat.cast_mul, Nat.cast_pow, Nat.cast_ofNat, zpow_negSucc]
    rw [← div_div, div_eq_mul_inv _ ((2 : ℝ) ^ (n + 1))]

theorem den_pos_scale {x : Mag} (h : 0 < x.den) (k : Int) : 0 < (x.scale k).den := by
  cases k with
  | ofNat n => exact h
  | negSucc n => exact Nat.mul_pos h (by positivity)

theorem isZero_iff {x : Mag} (h : 0 < x.den) : x.isZero = true ↔ x.val = 0 := by
  have : (x.den : ℝ) ≠ 0 := by positivity
  simp [isZero, val, this]

theorem val_pos_iff {x : Mag} (h : 0 < x.den) : 0 < x.val ↔ 0 < x.num := by
  have hd : (0 : ℝ) < x.den := by positivity
  simp [val, div_pos_iff_of_pos_right hd]

theorem lt_iff {x y : Mag} (hx : 0 < x.den) (hy : 0 < y.den) : x.lt y = true ↔ x.val < y.val := by
  have hx' : (0 : ℝ) < x.den := by positivity
  have hy' : (0 : ℝ) < y.den := by positivity
  rw [lt, decide_eq_true_iff, val, val, div_lt_div_iff₀ hx' hy']
  exact_mod_cast Iff.rfl

/-- floor(x) is the greatest natural number not above x. -/
theorem floor_spec {x : Mag} (h : 0 < x.den) : (x.floor : ℝ) ≤ x.val ∧ x.val < x.floor + 1 := by
  have hd : (0 : ℝ) < x.den := by positivity
  rw [val, le_div_iff₀ hd, div_lt_iff₀ hd]
  exact ⟨by exact_mod_cast Nat.div_mul_le_self x.num x.den,
    by exact_mod_cast Nat.lt_mul_of_div_lt (Nat.lt_succ_self (x.num / x.den)) h⟩

theorem isInt_iff {x : Mag} (h : 0 < x.den) : x.isInt = true ↔ (x.floor : ℝ) = x.val := by
  have hd : (x.den : ℝ) ≠ 0 := by positivity
  rw [isInt, beq_iff_eq, ← Nat.dvd_iff_mod_eq_zero, val, eq_div_iff hd]
  constructor
  · exact fun hdvd => by exact_mod_cast Nat.div_mul_cancel hdvd
  · exact fun he => ⟨x.floor, by rw [mul_comm]; exact_mod_cast he.symm⟩

/-- floor(log2 x): the power of two below x and the one above it. -/
theorem floorLog2_spec {x : Mag} (hn : 0 < x.num) (hd : 0 < x.den) :
    (2 : ℝ) ^ x.floorLog2 ≤ x.val ∧ x.val < 2 ^ (x.floorLog2 + 1) := by
  have hd' : (0 : ℝ) < x.den := by positivity
  have hn1 : (2 : ℝ) ^ (x.num.log2 : ℤ) ≤ x.num := by
    rw [zpow_natCast]; exact_mod_cast Nat.log2_self_le hn.ne'
  have hn2 : (x.num : ℝ) < 2 ^ ((x.num.log2 : ℤ) + 1) := by
    have : (x.num : ℝ) < 2 ^ (x.num.log2 + 1) := by exact_mod_cast Nat.lt_log2_self (n := x.num)
    exact_mod_cast this
  have hd1 : (2 : ℝ) ^ (x.den.log2 : ℤ) ≤ x.den := by
    rw [zpow_natCast]; exact_mod_cast Nat.log2_self_le hd.ne'
  have hd2 : (x.den : ℝ) < 2 ^ ((x.den.log2 : ℤ) + 1) := by
    have : (x.den : ℝ) < 2 ^ (x.den.log2 + 1) := by exact_mod_cast Nat.lt_log2_self (n := x.den)
    exact_mod_cast this
  have low : (2 : ℝ) ^ ((x.num.log2 : ℤ) - x.den.log2 - 1) ≤ x.val := by
    rw [val, le_div_iff₀ hd']
    refine le_trans ?_ hn1
    calc (2 : ℝ) ^ ((x.num.log2 : ℤ) - x.den.log2 - 1) * x.den
        ≤ 2 ^ ((x.num.log2 : ℤ) - x.den.log2 - 1) * 2 ^ ((x.den.log2 : ℤ) + 1) := by gcongr
      _ = 2 ^ (x.num.log2 : ℤ) := by rw [← zpow_add₀ two_ne_zero]; congr 1; ring
  have high : x.val < (2 : ℝ) ^ ((x.num.log2 : ℤ) - x.den.log2 + 1) := by
    rw [val, div_lt_iff₀ hd']
    refine lt_of_lt_of_le hn2 ?_
    calc (2 : ℝ) ^ ((x.num.log2 : ℤ) + 1)
        = 2 ^ ((x.num.log2 : ℤ) - x.den.log2 + 1) * 2 ^ (x.den.log2 : ℤ) := by
          rw [← zpow_add₀ two_ne_zero]; congr 1; ring
      _ ≤ 2 ^ ((x.num.log2 : ℤ) - x.den.log2 + 1) * x.den := by gcongr
  have cut := lt_iff hd (den_pos_scale (x := ofNat 1) Nat.one_pos ((x.num.log2 : Int) - x.den.log2))
  rw [val_scale, val_ofNat, Nat.cast_one, one_mul] at cut
  unfold floorLog2
  split
  · next h => exact ⟨low, by rw [sub_add_cancel]; exact cut.1 h⟩
  · next h => exact ⟨not_lt.1 (fun hlt => h (cut.2 hlt)), high⟩

end Mag

/-! ### The integer square root -/

theorem rootBits_spec (k n r : Nat) (hlo : r * r ≤ n) (hhi : n < (r + 2 ^ k) * (r + 2 ^ k)) :
    rootBits k n r * rootBits k n r ≤ n ∧ n < (rootBits k n r + 1) * (rootBits k n r + 1) := by
  induction k generalizing r with
  | zero => exact ⟨hlo, by simpa [rootBits] using hhi⟩
  | succ k ih =>
    have hsum : r + 2 ^ (k + 1) = r + 2 ^ k + 2 ^ k := by ring
    rw [rootBits]
    split
    · next h => exact ih _ h (by rwa [← hsum])
    · next h => exact ih _ hlo (not_le.1 h)

/-- isqrt(n) is the greatest r with r² ≤ n. -/
theorem isqrt_spec (n : Nat) : isqrt n * isqrt n ≤ n ∧ n < (isqrt n + 1) * (isqrt n + 1) := by
  refine rootBits_spec _ n 0 (by simp) ?_
  rw [Nat.zero_add, ← pow_add]
  exact lt_of_lt_of_le Nat.lt_log2_self (Nat.pow_le_pow_right two_pos (by omega))

/-! ### Exact results -/

namespace Exact

theorem val_nonneg (y : Exact) : 0 ≤ y.val := by
  cases y with
  | rat x => exact x.val_nonneg
  | root x => exact Real.sqrt_nonneg _

theorem exceeds_iff {y : Exact} {m : Mag} (hy : y.proper) (hm : 0 < m.den) : y.exceeds m = true ↔ m.val < y.val := by
  cases y with
  | rat x => exact Mag.lt_iff hm hy
  | root x =>
    rw [exceeds, Mag.lt_iff (Nat.mul_pos hm hm) hy, Mag.val_mul, val, Real.lt_sqrt m.val_nonneg, sq]

theorem isBelow_iff {y : Exact} {m : Mag} (hy : y.proper) (hm : 0 < m.den) (hpos : 0 < m.val) :
    y.isBelow m = true ↔ y.val < m.val := by
  cases y with
  | rat x => exact Mag.lt_iff hy hm
  | root x =>
    rw [isBelow, Mag.lt_iff hy (Nat.mul_pos hm hm), Mag.val_mul, val, Real.sqrt_lt' hpos, sq]

theorem floorLog2_spec {y : Exact} (hy : y.proper) (hpos : 0 < y.val) :
    (2 : ℝ) ^ y.floorLog2 ≤ y.val ∧ y.val < 2 ^ (y.floorLog2 + 1) := by
  cases y with
  | rat x => exact Mag.floorLog2_spec ((Mag.val_pos_iff hy).1 hpos) hy
  | root x =>
    have hx : 0 < x.val := Real.sqrt_pos.1 hpos
    obtain ⟨lo, hi⟩ := Mag.floorLog2_spec ((Mag.val_pos_iff hy).1 hx) hy
    have half : 2 * (x.floorLog2 / 2) ≤ x.floorLog2 ∧ x.floorLog2 + 1 ≤ 2 * (x.floorLog2 / 2 + 1) := by omega
    have square (k : ℤ) : ((2 : ℝ) ^ k) ^ 2 = 2 ^ (2 * k) := by rw [← zpow_natCast, ← zpow_mul]; congr 1; push_cast; ring
    constructor
    · refine Real.le_sqrt_of_sq_le ?_
      rw [floorLog2, square]
      exact le_trans (zpow_le_zpow_right₀ one_le_two half.1) lo
    · refine (Real.sqrt_lt' (by positivity)).2 ?_
      rw [floorLog2, square]
      exact lt_of_lt_of_le hi (zpow_le_zpow_right₀ one_le_two half.2)

/-- The root of x scaled by 2^k is the root of x scaled by 2^(2k). -/
theorem root_scaled (x : Mag) (k : ℤ) : (root x).val * 2 ^ k = Real.sqrt (x.scale (2 * k)).val := by
  rw [Mag.val_scale, Real.sqrt_mul x.val_nonneg, val]
  rw [two_mul, zpow_add₀ two_ne_zero, Real.sqrt_mul_self (by positivity)]

/-- floor(y · 2^k) is the greatest natural number not above y · 2^k. -/
theorem floorScaled_spec {y : Exact} (hy : y.proper) (k : ℤ) :
    (y.floorScaled k : ℝ) ≤ y.val * 2 ^ k ∧ y.val * 2 ^ k < y.floorScaled k + 1 := by
  cases y with
  | rat x =>
    have := Mag.floor_spec (Mag.den_pos_scale hy k)
    rwa [Mag.val_scale] at this
  | root x =>
    rw [root_scaled, floorScaled]
    obtain ⟨flo, fhi⟩ := Mag.floor_spec (Mag.den_pos_scale hy (2 * k))
    obtain ⟨rlo, rhi⟩ := isqrt_spec (x.scale (2 * k)).floor
    generalize isqrt (x.scale (2 * k)).floor = r at rlo rhi ⊢
    constructor
    · refine Real.le_sqrt_of_sq_le (le_trans ?_ flo)
      rw [sq]; exact_mod_cast rlo
    · refine (Real.sqrt_lt' (by positivity)).2 (lt_of_lt_of_le fhi ?_)
      rw [sq]; exact_mod_cast rhi

theorem scaledIsInt_iff {y : Exact} (hy : y.proper) (k : ℤ) :
    y.scaledIsInt k = true ↔ (y.floorScaled k : ℝ) = y.val * 2 ^ k := by
  cases y with
  | rat x =>
    have := Mag.isInt_iff (Mag.den_pos_scale hy k)
    rwa [Mag.val_scale] at this
  | root x =>
    have hint := Mag.isInt_iff (Mag.den_pos_scale hy (2 * k))
    obtain ⟨rlo, -⟩ := isqrt_spec (x.scale (2 * k)).floor
    obtain ⟨flo, -⟩ := Mag.floor_spec (Mag.den_pos_scale hy (2 * k))
    rw [root_scaled, floorScaled, scaledIsInt, Bool.and_eq_true, beq_iff_eq, hint]
    generalize isqrt (x.scale (2 * k)).floor = r at rlo ⊢
    have hr : ((r * r : ℕ) : ℝ) ≤ (x.scale (2 * k)).floor := by exact_mod_cast rlo
    constructor
    · rintro ⟨h1, h2⟩
      rw [← h1, ← h2, Nat.cast_mul, Real.sqrt_mul_self (Nat.cast_nonneg r)]
    · intro h
      have hv : (x.scale (2 * k)).val = ((r * r : ℕ) : ℝ) := by
        rw [Nat.cast_mul, h, Real.mul_self_sqrt (Mag.val_nonneg _)]
      have hf : ((x.scale (2 * k)).floor : ℝ) = ((r * r : ℕ) : ℝ) := le_antisymm (hv ▸ flo) hr
      exact ⟨hf.trans hv.symm, by exact_mod_cast hf.symm⟩

end Exact

end Sys2Proof.Machine
end

