-- ==== Sys2Proof/Laws/Words.lean ====
section
/-! SUPPORT. The fields of packed words and requests: a field read from a packed word is the field packed. -/

namespace Sys2Proof

/-- Unpacking a packed request gives it back (R56). -/
theorem unpackRequest_packRequest (r : Request) : unpackRequest (packRequest r) = r := by
  obtain ⟨op, a, b, c⟩ := r
  simp only [unpackRequest, packRequest, Request.mk.injEq]
  refine ⟨?_, ?_, ?_, ?_⟩ <;> apply BitVec.eq_of_getLsbD_eq <;> intro i hi
  · have : ¬96 + i < 32 ∧ ¬96 + i - 32 < 32 ∧ ¬96 + i - 32 - 32 < 32 ∧ 96 + i - 32 - 32 - 32 = i := by omega
    simp only [BitVec.getLsbD_extractLsb', BitVec.getLsbD_append, hi, this, decide_true, Bool.true_and, if_false]
  · have : ¬64 + i < 32 ∧ ¬64 + i - 32 < 32 ∧ 64 + i - 32 - 32 < 32 ∧ 64 + i - 32 - 32 = i := by omega
    simp only [BitVec.getLsbD_extractLsb', BitVec.getLsbD_append, hi, this, decide_true, Bool.true_and, if_false, if_true]
  · have : ¬32 + i < 32 ∧ 32 + i - 32 < 32 ∧ 32 + i - 32 = i := by omega
    simp only [BitVec.getLsbD_extractLsb', BitVec.getLsbD_append, hi, this, decide_true, Bool.true_and, if_false, if_true]
  · simp only [BitVec.getLsbD_extractLsb', BitVec.getLsbD_append, hi, Nat.zero_add, decide_true, Bool.true_and, if_true]

/-- A mask over the op field sees the op field alone. -/
theorem packRequest_and_opMask (r : Request) (m : BitVec 4) :
    packRequest r &&& (m ++ 0#96 : BitVec 100) = (r.op &&& m) ++ 0#96 := by
  apply BitVec.eq_of_getLsbD_eq
  intro i hi
  simp only [packRequest, BitVec.getLsbD_append, BitVec.getLsbD_and]
  by_cases h : i < 96
  · simp [h]
  · have h1 : ¬i < 32 ∧ ¬i - 32 < 32 ∧ ¬i - 32 - 32 < 32 ∧ i - 32 - 32 - 32 = i - 96 := by omega
    simp only [h1, h, if_false]

/-- A row whose mask lies in the op field covers a request exactly when the op field matches. -/
theorem covers_packRequest (name : String) (pattern m : BitVec 4) (r : Request) :
    TableRow.covers { mnemonic := name, pattern := pattern ++ 0#96, mask := m ++ 0#96 } (packRequest r) =
      (r.op &&& m == pattern) := by
  rw [TableRow.covers, packRequest_and_opMask, Bool.eq_iff_iff, beq_iff_eq, beq_iff_eq]
  refine ⟨fun h => ?_, fun h => by rw [h]⟩
  apply BitVec.eq_of_getLsbD_eq
  intro i _
  have hi : ¬96 + i < 96 ∧ 96 + i - 96 = i := by omega
  have hb := congrArg (fun q : BitVec 100 => q.getLsbD (96 + i)) h
  rw [BitVec.getLsbD_append, BitVec.getLsbD_append] at hb
  simpa only [hi, if_false] using hb

namespace Machine

@[simp] theorem signBit_packWord (s : Bool) (e : BitVec 8) (f : BitVec 23) : signBit (packWord s e f) = s := by
  rw [signBit, packWord, BitVec.getLsbD_append, BitVec.getLsbD_append]
  simp

@[simp] theorem expField_packWord (s : Bool) (e : BitVec 8) (f : BitVec 23) : expField (packWord s e f) = e := by
  apply BitVec.eq_of_getLsbD_eq
  intro i hi
  rw [expField, packWord, BitVec.getLsbD_extractLsb', BitVec.getLsbD_append, BitVec.getLsbD_append]
  simp [hi]

@[simp] theorem fracField_packWord (s : Bool) (e : BitVec 8) (f : BitVec 23) : fracField (packWord s e f) = f := by
  apply BitVec.eq_of_getLsbD_eq
  intro i hi
  rw [fracField, packWord, BitVec.getLsbD_extractLsb', BitVec.getLsbD_append]
  simp [hi]

/-- A word is its three fields (R62). -/
theorem packWord_fields (p : Word) : packWord (signBit p) (expField p) (fracField p) = p := by
  apply BitVec.eq_of_getLsbD_eq
  intro i hi
  simp only [signBit, expField, fracField, packWord, BitVec.getLsbD_append, BitVec.getLsbD_extractLsb',
    BitVec.getLsbD_ofBool]
  split
  · simp_all
  · split
    · have : 23 + (i - 23) = i := by omega
      simp_all
    · obtain rfl : i = 31 := by omega
      simp

theorem zeroWord_eq (s : Bool) : zeroWord s = packWord s 0 0 := by cases s <;> rfl

theorem maxMagWord_config (s : Bool) : maxMagWord config s = packWord s 255 0x7FFFFF := by cases s <;> rfl

end Machine

end Sys2Proof
end

