-- ==== Sys2Proof/Laws/Ops.lean ====
section
/-! SUPPORT. One lemma per shared operation: everything it can do. -/

namespace Sys2Proof.Machine

/-! ### Ending a transaction -/

/-- What the end of an operation leaves, field by field (R195, R196). -/
theorem complete_cases {o : OpResult} {s t : State} (h : complete o s = .next t) :
    t.flags = s.flags ||| o.delta ∧ t.pending = s.pending ∧
      t.response = some { result := o.result, delta := o.delta, flags := s.flags ||| o.delta, err := false } := by
  rw [complete_eq_next] at h
  cases h
  exact ⟨rfl, rfl, rfl⟩

theorem answer_cases {r : Word} {d f : FlagSet} {e : Bool} {s t : State} (h : answer r d f e s = .next t) :
    t.flags = f ∧ t.pending = s.pending ∧ t.response = some { result := r, delta := d, flags := f, err := e } := by
  rw [answer_eq_next] at h
  cases h
  exact ⟨rfl, rfl, rfl⟩

/-! ### Decode's magnitudes -/

theorem den_pos_fieldsValue (cfg : Config) (e : BitVec 8) (f : BitVec 23) : 0 < (fieldsValue cfg e f).den :=
  Mag.den_pos_scale Nat.one_pos _

theorem den_pos_maxMag (cfg : Config) : 0 < (maxMag cfg).den := den_pos_fieldsValue cfg _ _

theorem den_pos_minNormal (cfg : Config) : 0 < (minNormal cfg).den := Mag.den_pos_scale Nat.one_pos _

theorem den_pos_decodeValue (cfg : Config) (p : Word) : 0 < (decodeValue cfg p).mag.den := by
  unfold decodeValue
  dsimp only
  split
  · exact Nat.one_pos
  · split
    · exact den_pos_maxMag cfg
    · exact den_pos_fieldsValue cfg _ _

theorem fieldsValue_val (e : BitVec 8) (f : BitVec 23) :
    (fieldsValue config e f).val = (2 ^ 23 + (f.toNat : ℝ)) * 2 ^ ((e.toNat : ℤ) - 150) := by
  have hb : config.expBias + 23 = 150 := rfl
  rw [fieldsValue, Mag.val_scale, Mag.val_ofNat, hb]
  norm_num

theorem maxMag_val : (maxMag config).val = maxMagnitude := by
  rw [maxMag, fieldsValue_val, maxMagnitude]
  have he : (config.maxMagPattern.extractLsb' 23 8).toNat = 255 := rfl
  have hf : (config.maxMagPattern.extractLsb' 0 23).toNat = 2 ^ 23 - 1 := rfl
  rw [he, hf]
  norm_num

theorem minNormal_val : (minNormal config).val = leastNormal := by
  rw [minNormal, Mag.val_scale, Mag.val_ofNat, Nat.cast_one, one_mul]
  rfl

/-! ### RoundPack and AddCore -/

/-- RoundPack answers in one of three ways: the clamp word with O, the signed zero with U, or the end after the rounding unit
(R104). -/
theorem roundPack_cases (cfg : Config) (s : Bool) (y : Exact) :
    (y.exceeds (maxMag cfg) = true ∧ roundPack cfg s y = { result := maxMagWord cfg s, delta := flagO }) ∨
    (y.exceeds (maxMag cfg) = false ∧ y.isBelow (minNormal cfg) = true ∧
      roundPack cfg s y = { result := zeroWord s, delta := flagU }) ∨
    (y.exceeds (maxMag cfg) = false ∧ y.isBelow (minNormal cfg) = false ∧
      roundPack cfg s y = packRounded cfg s (intermediate y).exponent
        (cfg.roundPolicy { sign := s, sig := (intermediate y).sig, guard := (intermediate y).guard,
                           round := (intermediate y).round, sticky := (intermediate y).sticky })) := by
  unfold roundPack
  split
  · next h => exact .inl ⟨h, rfl⟩
  · next h =>
    have h' := Bool.eq_false_of_not_eq_true h
    split
    · next h2 => exact .inr (.inl ⟨h', h2, rfl⟩)
    · next h2 => exact .inr (.inr ⟨h', Bool.eq_false_of_not_eq_true h2, rfl⟩)

/-- The numerator AddCore tests is the exact signed sum over the common denominator (R112). -/
theorem signedSum_val {x y : Decoded} (hx : 0 < x.mag.den) (hy : 0 < y.mag.den) :
    (signedSum x y : ℝ) / ((x.mag.den * y.mag.den : ℕ) : ℝ) = signed x.sign x.mag.val + signed y.sign y.mag.val := by
  have hx' : (x.mag.den : ℝ) ≠ 0 := by positivity
  have hy' : (y.mag.den : ℝ) ≠ 0 := by positivity
  rcases hsx : x.sign with _ | _ <;> rcases hsy : y.sign with _ | _ <;>
    simp only [signedSum, signedInt, signed, Mag.val, hsx, hsy, if_true, Bool.false_eq_true, if_false] <;>
    push_cast <;> field_simp

/-- AddCore answers in one of three ways: a nonzero sum through RoundPack, the zero of two like-signed zeros, or +0 (R112). -/
theorem addCore_cases (cfg : Config) (x y : Decoded) :
    (signedSum x y ≠ 0 ∧ addCore cfg x y = roundPack cfg (decide (signedSum x y < 0))
      (.rat { num := (signedSum x y).natAbs, den := x.mag.den * y.mag.den })) ∨
    (signedSum x y = 0 ∧ x.mag.isZero = true ∧ y.mag.isZero = true ∧ x.sign = y.sign ∧
      addCore cfg x y = { result := zeroWord x.sign, delta := noFlags }) ∨
    (signedSum x y = 0 ∧ ¬(x.mag.isZero = true ∧ y.mag.isZero = true ∧ x.sign = y.sign) ∧
      addCore cfg x y = { result := zeroWord false, delta := noFlags }) := by
  unfold addCore
  dsimp only
  split
  · next h => exact .inl ⟨h, rfl⟩
  · next h =>
    rw [ne_eq, not_not] at h
    split
    · next h2 =>
      simp only [Bool.and_eq_true, beq_iff_eq] at h2
      exact .inr (.inl ⟨h, h2.1.1, h2.1.2, h2.2, rfl⟩)
    · next h2 =>
      simp only [Bool.and_eq_true, beq_iff_eq, and_assoc] at h2
      exact .inr (.inr ⟨h, h2, rfl⟩)

end Sys2Proof.Machine
end

