-- ==== Sys2Proof/Laws/PerInstr.lean ====
section
/-! SUPPORT. Facts about every instruction as syntax, one lemma per constructor. -/

namespace Sys2Proof.Laws.TableRowOf

/-- The request a well-formed instruction encodes to is covered by a row of the opcode table that bears its mnemonic (R57). -/
def Statement (i : Instr) : Prop :=
  i.wellFormed = true →
    ∃ row ∈ opcodeTable, row.mnemonic = mnemonic i ∧ row.covers (packRequest (encode i)) = true

/-- The common shape: an operation's row, which takes the op field whole. -/
theorem of_operationRow {i : Instr} (name : String) (op : BitVec 4) (hname : mnemonic i = name) (hop : opCode i = op)
    (h : operationRow name op ∈ opcodeTable) : Statement i := fun _ =>
  ⟨_, h, hname.symm, by
    rw [operationRow, covers_packRequest, encode, hop, beq_iff_eq]
    exact BitVec.and_allOnes⟩

theorem add (a b : Word) : Statement (.add a b) := of_operationRow "ADD" 0x0 rfl rfl (by decide)
theorem sub (a b : Word) : Statement (.sub a b) := of_operationRow "SUB" 0x1 rfl rfl (by decide)
theorem mul (a b : Word) : Statement (.mul a b) := of_operationRow "MUL" 0x2 rfl rfl (by decide)
theorem div (a b : Word) : Statement (.div a b) := of_operationRow "DIV" 0x3 rfl rfl (by decide)
theorem madd (a b c : Word) : Statement (.madd a b c) := of_operationRow "MADD" 0x4 rfl rfl (by decide)
theorem msub (a b c : Word) : Statement (.msub a b c) := of_operationRow "MSUB" 0x5 rfl rfl (by decide)
theorem sqrt (a : Word) : Statement (.sqrt a) := of_operationRow "SQRT" 0x6 rfl rfl (by decide)
theorem rsqrt (a : Word) : Statement (.rsqrt a) := of_operationRow "RSQRT" 0x7 rfl rfl (by decide)
theorem rcp (a : Word) : Statement (.rcp a) := of_operationRow "RCP" 0x8 rfl rfl (by decide)
theorem classify (a : Word) : Statement (.classify a) := of_operationRow "CLASS" 0x9 rfl rfl (by decide)
theorem rdflags : Statement .rdflags := of_operationRow "RDFLAGS" 0xA rfl rfl (by decide)
theorem clrflags : Statement .clrflags := of_operationRow "CLRFLAGS" 0xB rfl rfl (by decide)

/-- The four reserved op codes are those whose upper two bits are 11. -/
theorem reserved (op : BitVec 4) : Statement (.reserved op) := fun h => by
  refine ⟨{ mnemonic := "RESERVED", pattern := 0xC#4 ++ 0#96, mask := 0xC#4 ++ 0#96 }, by decide, rfl, ?_⟩
  rw [covers_packRequest]
  revert op
  decide

end Sys2Proof.Laws.TableRowOf
end

