-- ==== Sys2Proof/Laws/Run.lean ====
section
/-! SUPPORT. What exec and step can do, said once, and the induction over runs packaged once. -/

namespace Sys2Proof.Machine

/-- Every instruction ends in one of three ways: CLRFLAGS and the reserved codes answer as they do, every other one completes with
a result and a delta (R195). -/
theorem exec_cases (i : Instr) (s : State) :
    (i = .clrflags ∧ exec i s = answer 0 noFlags noFlags false s) ∨
    (∃ op, i = .reserved op ∧ exec i s = answer 0 noFlags s.flags true s) ∨
    (i ≠ .clrflags ∧ (∀ op, i ≠ .reserved op) ∧ ∃ o, exec i s = complete o s) := by
  cases i with
  | clrflags => exact .inl ⟨rfl, rfl⟩
  | reserved op => exact .inr (.inl ⟨op, rfl, rfl⟩)
  | _ => exact .inr (.inr ⟨by simp, by simp, _, rfl⟩)

/-- Every step idles, resets, or runs the decoded oldest request. -/
theorem step_cases (s : State) :
    (s.pending = [] ∧ step s = .next (idle s)) ∨
    (∃ rest, (s.pending = .reset :: rest ∨ ∃ r, s.pending = .resetDuring r :: rest) ∧
      step s = .next (resetInstance { s with pending := rest })) ∨
    (∃ r rest, s.pending = .request r :: rest ∧ step s = exec (decode r) { s with pending := rest }) := by
  obtain ⟨f, pending, x⟩ := s
  match pending with
  | [] => exact .inl ⟨rfl, rfl⟩
  | .reset :: rest => exact .inr (.inl ⟨rest, .inl rfl, rfl⟩)
  | .resetDuring r :: rest => exact .inr (.inl ⟨rest, .inr ⟨r, rfl⟩, rfl⟩)
  | .request r :: rest => exact .inr (.inr ⟨r, rest, rfl, rfl⟩)

/-! ### FLAGS after one transaction -/

theorem flagsAfter_of_clear {r : Request} (f : FlagSet) (h : decode r = .clrflags) : flagsAfter f r = noFlags := if_pos h

theorem flagsAfter_of_not_clear {r : Request} (f : FlagSet) (h : decode r ≠ .clrflags) :
    flagsAfter f r = f ||| raised r := if_neg h

/-- A transaction run in any state leaves FLAGS as flagsAfter says, and what is issued stays issued. -/
theorem exec_flagsAfter (r : Request) (s : State) :
    ∃ t, exec (decode r) s = .next t ∧ t.pending = s.pending ∧ t.flags = flagsAfter s.flags r := by
  rcases h : decode r with _ | _ | _ | _ | _ | _ | _ | _ | _ | _ | _ | _ | _ <;>
    refine ⟨_, rfl, rfl, ?_⟩
  case clrflags => exact (flagsAfter_of_clear _ h).symm
  all_goals
    rw [flagsAfter_of_not_clear _ (by rw [h]; exact Instr.noConfusion), raised, h]
    first
      | rfl
      | exact BitVec.or_zero.symm

/-! ### Runs -/

theorem hostRun_succ (M : Host.Core) {s t : M.State} (n : Nat) (h : M.step s = .next t) : M.run (n + 1) s = M.run n t := by
  rw [Host.Core.run, h]

/-- A run of n + m steps is a run of m steps from where n steps end. -/
theorem hostRun_add (M : Host.Core) {s t : M.State} (n m : Nat) (h : M.run n s = .next t) :
    M.run (n + m) s = M.run m t := by
  induction n generalizing s with
  | zero =>
    cases h
    rw [Nat.zero_add]
  | succ n ih =>
    rw [Nat.add_right_comm]
    rw [Host.Core.run] at h ⊢
    split at h
    · exact ih h
    · cases h
    · cases h

theorem run_zero (s : State) : Host.Core.run Sys2Proof.core 0 s = .next s := rfl

theorem run_succ {s t : State} (n : Nat) (h : step s = .next t) :
    Host.Core.run Sys2Proof.core (n + 1) s = Host.Core.run Sys2Proof.core n t :=
  hostRun_succ Sys2Proof.core n h

theorem run_add {s t : State} (n m : Nat) (h : Host.Core.run Sys2Proof.core n s = .next t) :
    Host.Core.run Sys2Proof.core (n + m) s = Host.Core.run Sys2Proof.core m t :=
  hostRun_add Sys2Proof.core n m h

/-- A property that every step answers with a next state and keeps, every run answers with a next state and keeps. -/
theorem run_induction {P : State → Prop} (kept : ∀ s, P s → ∃ t, step s = .next t ∧ P t) (n : Nat) {s : State} (hs : P s) :
    ∃ t : State, Host.Core.run Sys2Proof.core n s = .next t ∧ P t := by
  induction n generalizing s with
  | zero => exact ⟨s, rfl, hs⟩
  | succ n ih =>
    obtain ⟨t, hst, ht⟩ := kept s hs
    rw [run_succ n hst]
    exact ih ht

end Sys2Proof.Machine
end

