-- ==== Sys2Proof/Tests/Slice0.lean ====
section
/-! SUPPORT. Tests of one step or one definition each, with expected results from the spec's text, and a witness for every
statement of Certificates/Slice0/Obligations.lean that has hypotheses. V<n> and P<n> are vectors and programs of
95_test_vectors.md. -/

namespace Sys2Proof.Tests

open Machine

/-- The packed response of the request `q` issued with FLAGS = `f` (R56). -/
def respAfter (f : FlagSet) (q : Nat) : Option (BitVec 39) :=
  match step ({ State.reset with flags := f }.withFetchWord 104 q) with
  | .next t => t.response.map packResponse
  | .fault _ => none
  | .refused _ => none

/-! ### WellFormed -/

theorem test_reserved_with_operation_code_is_ill_formed : (Instr.reserved 0x3).wellFormed = false := by decide
theorem test_reserved_below_C_is_ill_formed : (Instr.reserved 0xB).wellFormed = false := by decide
theorem test_reserved_C_is_well_formed : (Instr.reserved 0xC).wellFormed = true := by decide

/-! ### Decoding: words written out as op ‖ a ‖ b ‖ c (R56, R57), with unread operands not zero (R58) -/

theorem test_decode_add : decodeTableWord 104 0x0_11111111_22222222_33333333 = some (.add 0x11111111 0x22222222) := by
  decide
theorem test_decode_sub : decodeTableWord 104 0x1_11111111_22222222_33333333 = some (.sub 0x11111111 0x22222222) := by
  decide
theorem test_decode_mul : decodeTableWord 104 0x2_11111111_22222222_33333333 = some (.mul 0x11111111 0x22222222) := by
  decide
theorem test_decode_div : decodeTableWord 104 0x3_11111111_22222222_33333333 = some (.div 0x11111111 0x22222222) := by
  decide
theorem test_decode_madd :
    decodeTableWord 104 0x4_11111111_22222222_33333333 = some (.madd 0x11111111 0x22222222 0x33333333) := by decide
theorem test_decode_msub :
    decodeTableWord 104 0x5_11111111_22222222_33333333 = some (.msub 0x11111111 0x22222222 0x33333333) := by decide
theorem test_decode_sqrt : decodeTableWord 104 0x6_11111111_22222222_33333333 = some (.sqrt 0x11111111) := by decide
theorem test_decode_rsqrt : decodeTableWord 104 0x7_11111111_22222222_33333333 = some (.rsqrt 0x11111111) := by decide
theorem test_decode_rcp : decodeTableWord 104 0x8_11111111_22222222_33333333 = some (.rcp 0x11111111) := by decide
theorem test_decode_class : decodeTableWord 104 0x9_11111111_22222222_33333333 = some (.classify 0x11111111) := by decide
theorem test_decode_rdflags : decodeTableWord 104 0xA_11111111_22222222_33333333 = some .rdflags := by decide
theorem test_decode_clrflags : decodeTableWord 104 0xB_11111111_22222222_33333333 = some .clrflags := by decide
theorem test_decode_reserved_C : decodeTableWord 104 0xC_11111111_22222222_33333333 = some (.reserved 0xC) := by decide
theorem test_decode_reserved_F : decodeTableWord 104 0xF_11111111_22222222_33333333 = some (.reserved 0xF) := by decide
/-- The bits above nbits are 0. -/
theorem test_decode_short_word : decodeTableWord 32 0xF_11111111_22222222_33333333 = some (.add 0 0) := by decide
/-- A number of 101 bits is no request (R13). -/
theorem test_overwide_word_refused :
    (match decodeBits 104 (2 ^ 100) with | .error .invalidOperandWidth => true | .ok _ => false) = true := by decide
/-- P2, step 1: the packed request of a MADD. -/
theorem test_encode_madd :
    packRequest (encode (.madd 0x3F800001 0x3F800001 0xBF800002)) = 0x43F8000013F800001BF800002 := by decide

/-! ### Operations: the REQ and RESP columns of P1 to P5, and vectors V<n> packed alike -/

/-- V1, the source's own example. -/
theorem test_add_one_one : respAfter 0b001 0x03F8000003F80000000000000 = some 0x0840000000 := by decide
/-- V36: any excess over MAXMAG overflows. -/
theorem test_add_overflow : respAfter 0 0x07FFFFFFF73000000_00000000 = some 0x097FFFFFFF := by decide
/-- V54: a negative result below 2^−126 flushes to −0 with U. -/
theorem test_sub_underflow : respAfter 0 0x1_00800000_00C00000_00000000 = some 0x1280000000 := by decide
/-- V48: (−0) − (+0) = −0. -/
theorem test_sub_negative_zero : respAfter 0 0x1_80000000_00000000_00000000 = some 0x0080000000 := by decide
/-- V72: truncation of the largest significands. -/
theorem test_mul_truncates : respAfter 0 0x2_3FFFFFFF_3FFFFFFF_00000000 = some 0x00407FFFFE := by decide
/-- P4, step 1: underflow with I already set. -/
theorem test_mul_underflow : respAfter 0b100 0x2200000001F00000000000000 = some 0x3200000000 := by decide
/-- P3, step 2: 0 / 0 with O already set. -/
theorem test_div_zero_by_zero : respAfter 0b001 0x3800000000000000000000000 = some 0x2CFFFFFFFF := by decide
/-- V78: 1 / 3 truncated. -/
theorem test_div_third : respAfter 0 0x3_3F800000_40400000_00000000 = some 0x003EAAAAAA := by decide
/-- P2, step 5: a product above MAXMAG that comes back into range raises nothing. -/
theorem test_madd_fused : respAfter 0 0x47FFFFFFF40000000FFFFFFFF = some 0x007FFFFFFF := by decide
/-- V95: cancellation, exact and then truncated. -/
theorem test_madd_cancellation : respAfter 0 0x4_3FFFFFFF_3FFFFFFF_C0800000 = some 0x00B4FFFFFF := by decide
/-- V97: c is the minuend. -/
theorem test_msub_order : respAfter 0 0x5_40000000_40400000_40E00000 = some 0x003F800000 := by decide
/-- V100: (−0) − (+0) = −0. -/
theorem test_msub_negative_zero : respAfter 0 0x5_00000000_3F800000_80000000 = some 0x0080000000 := by decide
/-- V114: the root of a negative, with I. -/
theorem test_sqrt_negative : respAfter 0 0x6_FFFFFFFF_00000000_00000000 = some 0x245FB504F2 := by decide
/-- V108: sqrt(3) truncated. -/
theorem test_sqrt_three : respAfter 0 0x6_40400000_00000000_00000000 = some 0x003FDDB3D7 := by decide
/-- V126: 1 / sqrt(MAXMAG), no U. -/
theorem test_rsqrt_maxmag : respAfter 0 0x7_7FFFFFFF_00000000_00000000 = some 0x001F3504F3 := by decide
/-- P3, step 4: the sign of the zero is kept. -/
theorem test_rsqrt_negative_zero : respAfter 0b101 0x7800000000000000000000000 = some 0x29FFFFFFFF := by decide
/-- V138: just above 2^−126, truncated to it, no U. -/
theorem test_rcp_least_normal : respAfter 0 0x8_7E7FFFFF_00000000_00000000 = some 0x0000800000 := by decide
/-- V135: a negative denormal is −0. -/
theorem test_rcp_denormal : respAfter 0 0x8_807FFFFF_00000000_00000000 = some 0x09FFFFFFFF := by decide
/-- V145: a negative denormal, with BE. -/
theorem test_class_denormal : respAfter 0 0x9_807FFFFF_00000000_00000000 = some 0x0000000009 := by decide
/-- V151: an IEEE NaN pattern. -/
theorem test_class_nan_pattern : respAfter 0 0x9_7FC00000_00000000_00000000 = some 0x0000000003 := by decide
/-- P3, step 6. -/
theorem test_rdflags : respAfter 0b101 0xA000000000000000000000000 = some 0x2800000005 := by decide
/-- V159. -/
theorem test_clrflags : respAfter 0b101 0xB000000000000000000000000 = some 0x0000000000 := by decide
/-- P4, step 4. -/
theorem test_reserved : respAfter 0b110 0xC000000000000000000000000 = some 0x7000000000 := by decide
/-- R235: reset clears FLAGS. -/
theorem test_reset_input :
    step { State.reset with flags := 0b111, pending := [.reset] } = .next State.reset := by rfl

/-! ### Parameters other than the defaults -/

/-- A policy that rounds any excess up, carrying out of an all-ones significand: it exercises R108's path. -/
def roundUp : RoundPolicy := fun r =>
  if r.guard || r.round || r.sticky then
    { frac := (r.sig + 1).extractLsb' 0 23, carry := r.sig == 0xFFFFFF }
  else { frac := r.sig.extractLsb' 0 23, carry := false }

/-- 1 − 2^−26 rounds up into the next exponent, to 1.0 (R108). -/
theorem test_carry_into_exponent :
    opSub { config with roundPolicy := roundUp } 0x3F800000 0x32800000 = { result := 0x3F800000, delta := 0 } := by decide
/-- CANONICAL: 0x7F800000 has the value MAXMAG, so adding a zero gives MAXMAG's word (R7). -/
theorem test_canonical_operand :
    opAdd { config with operandMode := .canonical } 0x7F800000 0 = { result := 0x7FFFFFFF, delta := 0 } := by decide

/-! ### Fixture rows (R66) -/

/-- The example row of R66: ADD 3F800000 3F800000 -> 40000000 with no flag. -/
def exampleFixture : Fixture := { instr := .add 0x3F800000 0x3F800000, result := 0x40000000, delta := 0 }

theorem test_fixture_text :
    fixtureText exampleFixture =
      ['A', 'D', 'D', ' ', '3', 'F', '8', '0', '0', '0', '0', '0', ' ', '3', 'F', '8', '0', '0', '0', '0', '0', ' ', '-',
       '>', ' ', '4', '0', '0', '0', '0', '0', '0', '0', ' ', Char.ofNat 123, Char.ofNat 125] := by decide
theorem test_fixture_holds : exampleFixture.holds State.reset = true := by decide
/-- The optional prefix and lower-case digits. -/
theorem test_parse_prefixed_word : parseWord ['0', 'x', '3', 'f', '8', '0', '0', '0', '0', '0'] = some 0x3F800000 := by
  decide

/-! ### Witnesses for the statements' hypotheses -/

/-- A state with a request, a reset and nothing else issued. -/
def busy : State :=
  { State.reset with pending := [.request (encode (.add 0x3F800000 0x3F800000)), .reset] }

theorem witness_DecodeInvertsEncode : (Instr.madd 1 2 3).wellFormed = true := by decide
theorem witness_UnreadOperandsIgnored :
    ({ op := 6, a := 1, b := 2, c := 3 } : Request).op = ({ op := 6, a := 1, b := 4, c := 5 } : Request).op ∧
      ¬(6 ≤ 5) ∧ ({ op := 6, a := 1, b := 2, c := 3 } : Request) ≠ { op := 6, a := 1, b := 4, c := 5 } := by decide
theorem witness_FixtureTextReadsBack : ∀ op, exampleFixture.instr ≠ .reserved op := by decide
theorem witness_StepRunsDecodedInstruction :
    busy.pending = .request (encode (.add 0x3F800000 0x3F800000)) :: [.reset] := by decide
theorem witness_FetchWordRunsNext : decodeTableWord 104 0xA000000000000000000000000 = some .rdflags := by decide
theorem witness_IdleStepKeepsFlags : ({ State.reset with flags := 0b101 } : State).pending = [] := by decide
theorem witness_DeltasAccumulate : Instr.rdflags ≠ .clrflags ∧ ∀ op, Instr.rdflags ≠ .reserved op := by decide
/-- For the decoding clause of RdflagsReadsFlags, ClrflagsClears and every operation's statement: a request with that op code. -/
theorem witness_op_codes : ∀ op : BitVec 4, ({ op := op, a := 1, b := 2, c := 3 } : Request).op = op := by decide
theorem witness_ReservedCodesAnswerErr : 0xC ≤ ({ op := 0xC, a := 0, b := 0, c := 0 } : Request).op.toNat := by decide

/-- A response exists: the premise of ErrOnlyForReservedCodes, AtMostOneFlagRaised, FlagsHaveExactlyTheirCauses and
OperatorsIgnoreState, on an operation that raises a flag and on a reserved code. -/
theorem witness_responses :
    responseOf (.div 0x3F800000 0) busy = some { result := 0x7FFFFFFF, delta := 0b001, flags := 0b001, err := false } ∧
    responseOf (.div 0x3F800000 0) { busy with flags := 0b110 } =
      some { result := 0x7FFFFFFF, delta := 0b001, flags := 0b111, err := false } ∧
    responseOf (.reserved 0xC) busy = some { result := 0, delta := 0, flags := 0, err := true } := by decide
theorem witness_InstructionFrame :
    exec .clrflags { busy with flags := 0b111 } =
      .next { busy with response := some { result := 0, delta := 0, flags := 0, err := false } } := by rfl
/-- For ReadShowsFlagsSinceClear: a CLRFLAGS and an RDFLAGS request whose unread operand words are not zero; the other two clears
are .reset and .resetDuring of any request. -/
theorem witness_clear_and_read_with_unread_words :
    decode { op := 0xB, a := 1, b := 2, c := 3 } = .clrflags ∧ decode { op := 0xA, a := 1, b := 2, c := 3 } = .rdflags := by
  decide
/-- For SequencesAccumulateFlags' clause about the last clear: FLAGS = I, MUL raises O, a clear, MUL raises U. -/
theorem witness_sequence_with_clear :
    [encode (.mul 0x7F000000 0x7F000000), encode .clrflags, encode (.mul 0x20000000 0x1F000000)] =
        [encode (.mul 0x7F000000 0x7F000000)] ++ encode .clrflags :: [encode (.mul 0x20000000 0x1F000000)] ∧
      decode (encode .clrflags) = .clrflags ∧ (∀ r ∈ [encode (.mul 0x20000000 0x1F000000)], decode r ≠ .clrflags) ∧
      [encode (.mul 0x7F000000 0x7F000000), encode .clrflags, encode (.mul 0x20000000 0x1F000000)].foldl flagsAfter 0b100 =
        0b010 := by decide
/-- For ReadShowsFlagsSinceClear and SequencesAccumulateFlags: a sequence without a clear that raises O and then U. -/
theorem witness_sequences :
    (∀ r ∈ [encode (.mul 0x7F000000 0x7F000000), encode (.mul 0x20000000 0x1F000000)], decode r ≠ .clrflags) ∧
      raised (encode (.mul 0x7F000000 0x7F000000)) = 0b001 ∧ raised (encode (.mul 0x20000000 0x1F000000)) = 0b010 := by
  decide
theorem witness_StepEstablishesAgreement :
    step { State.reset with pending := [.request (encode .rdflags)] } =
      .next { State.reset with response := some { result := 0, delta := 0, flags := 0, err := false } } := by rfl
theorem witness_RunsNeverStopAndKeepAgreement :
    ({ busy with flags := 0b101, response := some { result := 7, delta := 0b100, flags := 0b101, err := false } } :
      State).inv = true := by decide
theorem witness_ContextStepsCommute : (0 : Fin [busy, State.reset].length) ≠ 1 := by decide

/-! Real values for the statements about rounding: the magnitudes 1, 2^−126, MAXMAG, 2^−127 and 2^129. -/

/-- The exact magnitude 2^k. -/
def powerOfTwo (k : Int) : Exact := .rat ((Mag.ofNat 1).scale k)

theorem powerOfTwo_proper (k : Int) : (powerOfTwo k).proper := Mag.den_pos_scale Nat.one_pos k

theorem powerOfTwo_val (k : Int) : (powerOfTwo k).val = 2 ^ k := by
  rw [powerOfTwo, Exact.val, Mag.val_scale, Mag.val_ofNat, Nat.cast_one, one_mul]

/-- For IntermediateIsExact and RoundPackTruncates, at the lower boundary. -/
theorem witness_least_normal_in_range :
    (powerOfTwo (-126)).proper ∧ leastNormal ≤ (powerOfTwo (-126)).val ∧ (powerOfTwo (-126)).val ≤ maxMagnitude := by
  rw [powerOfTwo_val]
  exact ⟨powerOfTwo_proper _, le_refl _, by norm_num [maxMagnitude]⟩

/-- For IntermediateIsExact and RoundPackTruncates, at the upper boundary. -/
theorem witness_maxmag_in_range :
    (Exact.rat (maxMag config)).proper ∧ leastNormal ≤ (Exact.rat (maxMag config)).val ∧
      (Exact.rat (maxMag config)).val ≤ maxMagnitude := by
  rw [Exact.val, maxMag_val]
  exact ⟨den_pos_maxMag config, by norm_num [leastNormal, maxMagnitude], le_refl _⟩

/-- For RoundPackTruncates' clause about representable magnitudes, at the least and the greatest. -/
theorem witness_representable : Representable (powerOfTwo (-126)).val ∧ Representable (Exact.rat (maxMag config)).val := by
  refine ⟨⟨1, 0, ?_⟩, ⟨255, 2 ^ 23 - 1, ?_⟩⟩
  · rw [powerOfTwo_val]; norm_num
  · rw [Exact.val, maxMag_val]; norm_num [maxMagnitude]

/-- For RoundPackTruncates' clauses about order and sign. -/
theorem witness_ordered_magnitudes : 0 < (powerOfTwo (-127)).val ∧ (powerOfTwo (-127)).val ≤ (powerOfTwo 129).val := by
  rw [powerOfTwo_val, powerOfTwo_val]
  norm_num

/-- For RoundPackClampsOverflow and RoundPackResultKinds. -/
theorem witness_overflow :
    (powerOfTwo 129).proper ∧ maxMagnitude < (powerOfTwo 129).val ∧
      (roundPack config false (powerOfTwo 129)).delta = 0b001 := by
  refine ⟨powerOfTwo_proper _, ?_, by decide⟩
  rw [powerOfTwo_val]
  norm_num [maxMagnitude]

/-- For RoundPackFlushesUnderflow. -/
theorem witness_underflow :
    (powerOfTwo (-127)).proper ∧ 0 < (powerOfTwo (-127)).val ∧ (powerOfTwo (-127)).val < 2 ^ (-126 : ℤ) := by
  refine ⟨powerOfTwo_proper _, ?_, ?_⟩ <;> rw [powerOfTwo_val] <;> norm_num

/-- For RoundPackResultKinds' last clause, at its lower boundary. -/
theorem witness_infinity_pattern_in_range :
    (powerOfTwo 128).proper ∧ 2 ^ 128 ≤ (powerOfTwo 128).val ∧ (powerOfTwo 128).val < 2 ^ 128 + 2 ^ 105 := by
  refine ⟨powerOfTwo_proper _, ?_, ?_⟩ <;> rw [powerOfTwo_val] <;> norm_num

/-- The magnitude 2^24 − 1/2, whose intermediate has an all-ones significand and a guard bit. -/
def justBelowPower : Exact := .rat { num := 2 ^ 25 - 1, den := 2 }

/-- For CarryGoesIntoExponent: a policy that meets the contract and an in-range magnitude on which it carries. -/
theorem witness_CarryGoesIntoExponent :
    roundUp.Contract ∧ justBelowPower.proper ∧ leastNormal ≤ justBelowPower.val ∧ justBelowPower.val ≤ maxMagnitude ∧
      (roundUp { sign := false, sig := (intermediate justBelowPower).sig, guard := (intermediate justBelowPower).guard,
                 round := (intermediate justBelowPower).round,
                 sticky := (intermediate justBelowPower).sticky }).carry = true := by
  refine ⟨?_, Nat.two_pos, ?_, ?_, by decide⟩
  · intro r h
    unfold roundUp at h ⊢
    split at h
    · next hc =>
      rw [if_pos hc]
      rw [show r.sig = 0xFFFFFF from by simpa using h]
      decide
    · cases h
  all_goals norm_num [justBelowPower, Exact.val, Mag.val, leastNormal, maxMagnitude]

/-- For AddCorePacksExactSum: two magnitudes with positive denominators. -/
theorem witness_AddCorePacksExactSum :
    0 < ({ sign := true, mag := { num := 1, den := 3 } } : Decoded).mag.den ∧
      0 < ({ sign := false, mag := { num := 0, den := 1 } } : Decoded).mag.den := by decide

theorem wordMag_of_expField_zero {p : Word} (h : expField p = 0) : wordMag p = 0 := if_pos h

theorem wordMag_ne_zero {p : Word} (h : expField p ≠ 0) : wordMag p ≠ 0 := by
  rw [wordMag, if_neg h]
  positivity

/-- Operands for every clause of MulPacksExactProduct, DivPacksExactQuotient, SqrtPacksExactRoot,
RsqrtPacksExactReciprocalRoot and RcpPacksExactReciprocal: the greatest denormal, worth zero, and the least Normal, not zero. -/
theorem witness_zero_and_nonzero_operands : wordMag 0x007FFFFF = 0 ∧ wordMag 0x00800000 ≠ 0 :=
  ⟨wordMag_of_expField_zero (by decide), wordMag_ne_zero (by decide)⟩

/-- For RootsStayInRange, at both boundaries. -/
theorem witness_RootsStayInRange :
    (0 < ((Mag.ofNat 1).scale (-126)).den ∧ leastNormal ≤ ((Mag.ofNat 1).scale (-126)).val ∧
      ((Mag.ofNat 1).scale (-126)).val ≤ maxMagnitude) ∧
    (0 < (maxMag config).den ∧ leastNormal ≤ (maxMag config).val ∧ (maxMag config).val ≤ maxMagnitude) :=
  ⟨witness_least_normal_in_range, witness_maxmag_in_range⟩

/-- For AddingZeroKeepsWord and SelfDifferenceAndQuotient: a Normal word and a MaxMagnitude word. -/
theorem witness_nonzero_classes : isZeroClass 0x00800000 = false ∧ isZeroClass 0xFFFFFFFF = false := by decide

/-- For PackedResultIsUnique, one clause of PacksTo each: an overflow, an underflow and a result in range. -/
theorem witness_PackedResultIsUnique :
    PacksTo true (2 ^ 129) 0xFFFFFFFF 0b001 ∧ PacksTo true (2 ^ (-127 : ℤ)) 0x80000000 0b010 ∧
      PacksTo false maxMagnitude 0x7FFFFFFF 0b000 := by
  have top : wordMag 0x7FFFFFFF = maxMagnitude := by
    have he : (expField 0x7FFFFFFF).toNat = 255 := by decide
    have hf : (fracField 0x7FFFFFFF).toNat = 2 ^ 23 - 1 := by decide
    rw [wordMag, if_neg (by decide), he, hf, maxMagnitude]
    norm_num
  refine ⟨.inl ⟨by norm_num [maxMagnitude], rfl, rfl⟩, .inr (.inl ⟨by norm_num [leastNormal], rfl, rfl⟩),
    .inr (.inr ⟨by norm_num [leastNormal, maxMagnitude], le_refl _, rfl, by decide, by decide, top.le, ?_⟩)⟩
  intro v _ hv
  rwa [top]

/-- For PackedResultIsUnique's clause about the machine: a positive exact magnitude in each of RoundPack's three cases. -/
theorem witness_PackedResultIsUnique_machine :
    ((powerOfTwo 129).proper ∧ 0 < (powerOfTwo 129).val ∧
      roundPack config true (powerOfTwo 129) = { result := 0xFFFFFFFF, delta := 0b001 }) ∧
    ((powerOfTwo (-127)).proper ∧ 0 < (powerOfTwo (-127)).val ∧
      roundPack config true (powerOfTwo (-127)) = { result := 0x80000000, delta := 0b010 }) ∧
    ((powerOfTwo (-126)).proper ∧ 0 < (powerOfTwo (-126)).val ∧
      roundPack config true (powerOfTwo (-126)) = { result := 0x80800000, delta := 0b000 }) := by
  refine ⟨⟨powerOfTwo_proper _, ?_, by decide⟩, ⟨powerOfTwo_proper _, ?_, by decide⟩, ⟨powerOfTwo_proper _, ?_, by decide⟩⟩
  all_goals
    rw [powerOfTwo_val]
    positivity

end Sys2Proof.Tests
end

section
/-! SUPPORT. Proofs of the statements about the scope of the block: every transaction completes, runs keep the invariant, and
operators do not see the state. -/

namespace Sys2Proof.Machine

/-! ### The delta an operation returns is legal (R214) -/

@[simp] theorem legalDelta_noFlags : legalDelta noFlags = true := rfl
@[simp] theorem legalDelta_flagO : legalDelta flagO = true := rfl
@[simp] theorem legalDelta_flagU : legalDelta flagU = true := rfl
@[simp] theorem legalDelta_flagI : legalDelta flagI = true := rfl

theorem legalDelta_packRounded (cfg : Config) (s : Bool) (e : Int) (r : RoundOutput) :
    legalDelta (packRounded cfg s e r).delta = true := by
  unfold packRounded
  generalize (if r.carry then e + 1 else e) = exponent
  dsimp only
  split
  · exact legalDelta_flagO
  · exact legalDelta_noFlags

theorem legalDelta_roundPack (cfg : Config) (s : Bool) (y : Exact) : legalDelta (roundPack cfg s y).delta = true := by
  obtain ⟨-, h⟩ | ⟨-, -, h⟩ | ⟨-, -, h⟩ := roundPack_cases cfg s y <;> rw [h]
  · exact legalDelta_flagO
  · exact legalDelta_flagU
  · exact legalDelta_packRounded ..

theorem legalDelta_addCore (cfg : Config) (x y : Decoded) : legalDelta (addCore cfg x y).delta = true := by
  obtain ⟨-, h⟩ | ⟨-, -, -, -, h⟩ | ⟨-, -, h⟩ := addCore_cases cfg x y <;> rw [h]
  · exact legalDelta_roundPack ..
  · exact legalDelta_noFlags
  · exact legalDelta_noFlags

theorem legalDelta_opMul (cfg : Config) (a b : Word) : legalDelta (opMul cfg a b).delta = true := by
  unfold opMul
  dsimp only
  split
  · exact legalDelta_noFlags
  · exact legalDelta_roundPack ..

theorem legalDelta_opDiv (cfg : Config) (a b : Word) : legalDelta (opDiv cfg a b).delta = true := by
  unfold opDiv
  dsimp only
  split
  · dsimp only
    split
    · exact legalDelta_flagI
    · exact legalDelta_flagO
  · split
    · exact legalDelta_noFlags
    · exact legalDelta_roundPack ..

/-- The delta of a root of a nonzero operand: I for a negative one (R175, R176). -/
theorem legalDelta_rootDelta (negative : Bool) : legalDelta (if negative then flagI else noFlags) = true := by
  cases negative <;> rfl

theorem legalDelta_opSqrt (cfg : Config) (a : Word) : legalDelta (opSqrt cfg a).delta = true := by
  unfold opSqrt
  dsimp only
  split
  · exact legalDelta_noFlags
  · exact legalDelta_rootDelta _

theorem legalDelta_opRsqrt (cfg : Config) (a : Word) : legalDelta (opRsqrt cfg a).delta = true := by
  unfold opRsqrt
  dsimp only
  split
  · exact legalDelta_flagO
  · exact legalDelta_rootDelta _

theorem legalDelta_opRcp (cfg : Config) (a : Word) : legalDelta (opRcp cfg a).delta = true := by
  unfold opRcp
  dsimp only
  split
  · exact legalDelta_flagO
  · exact legalDelta_roundPack ..

/-! ### What exec does in every state at once -/

/-- RDFLAGS, CLRFLAGS and the reserved codes apart, an instruction completes with one result and one legal delta, the same in
every state (R15, R195, R214). -/
theorem exec_cases_every_state (i : Instr) :
    i = .rdflags ∨ i = .clrflags ∨ (∃ op, i = .reserved op) ∨
      ∃ o : OpResult, legalDelta o.delta = true ∧ ∀ s, exec i s = complete o s := by
  cases i with
  | add a b => exact .inr (.inr (.inr ⟨_, legalDelta_addCore .., exec_add a b⟩))
  | sub a b => exact .inr (.inr (.inr ⟨_, legalDelta_addCore .., exec_sub a b⟩))
  | mul a b => exact .inr (.inr (.inr ⟨_, legalDelta_opMul .., exec_mul a b⟩))
  | div a b => exact .inr (.inr (.inr ⟨_, legalDelta_opDiv .., exec_div a b⟩))
  | madd a b c => exact .inr (.inr (.inr ⟨_, legalDelta_addCore .., exec_madd a b c⟩))
  | msub a b c => exact .inr (.inr (.inr ⟨_, legalDelta_addCore .., exec_msub a b c⟩))
  | sqrt a => exact .inr (.inr (.inr ⟨_, legalDelta_opSqrt .., exec_sqrt a⟩))
  | rsqrt a => exact .inr (.inr (.inr ⟨_, legalDelta_opRsqrt .., exec_rsqrt a⟩))
  | rcp a => exact .inr (.inr (.inr ⟨_, legalDelta_opRcp .., exec_rcp a⟩))
  | classify a => exact .inr (.inr (.inr ⟨_, legalDelta_noFlags, exec_classify a⟩))
  | rdflags => exact .inl rfl
  | clrflags => exact .inr (.inl rfl)
  | reserved op => exact .inr (.inr (.inl ⟨op, rfl⟩))

theorem exec_completes (i : Instr) (s : State) : ∃ t, exec i s = .next t := by
  obtain ⟨-, h⟩ | ⟨_, -, h⟩ | ⟨-, -, o, h⟩ := exec_cases i s
  · exact ⟨_, h.trans (answer_eq_next ..)⟩
  · exact ⟨_, h.trans (answer_eq_next ..)⟩
  · exact ⟨_, h.trans (complete_eq_next o s)⟩

theorem step_completes (s : State) : ∃ t, step s = .next t := by
  obtain ⟨-, h⟩ | ⟨_, -, h⟩ | ⟨r, rest, -, h⟩ := step_cases s
  · exact ⟨_, h⟩
  · exact ⟨_, h⟩
  · rw [h]
    exact exec_completes (decode r) _

/-! ### The invariant after each end of a step -/

theorem inv_of_response_none {t : State} (h : t.response = none) : t.inv = true := by
  rw [State.inv, h]

theorem inv_of_response_some {t : State} {r : Response} (h : t.response = some r) (ha : r.agrees t.flags = true) :
    t.inv = true := by
  rw [State.inv, h]
  exact ha

/-- A delta is contained in the FLAGS it has been ORed into (R196). -/
theorem and_accumulated (f d : FlagSet) : d &&& (f ||| d) = d := by
  revert f d
  decide

theorem inv_of_complete {o : OpResult} {s t : State} (hd : legalDelta o.delta = true) (h : complete o s = .next t) :
    t.inv = true := by
  obtain ⟨hf, -, hr⟩ := complete_cases h
  refine inv_of_response_some hr ?_
  simp [Response.agrees, hf, and_accumulated, hd]

/-- CLRFLAGS and the reserved codes answer zero with no delta, which agrees with every FLAGS (R59, R198). -/
theorem inv_of_zero_answer {f : FlagSet} {e : Bool} {s t : State} (h : answer 0 noFlags f e s = .next t) :
    t.inv = true := by
  obtain ⟨hf, -, hr⟩ := answer_cases h
  refine inv_of_response_some hr ?_
  simp [Response.agrees, hf, noFlags, legalDelta]

theorem inv_of_exec {i : Instr} {s t : State} (h : exec i s = .next t) : t.inv = true := by
  obtain rfl | rfl | ⟨op, rfl⟩ | ⟨o, hd, he⟩ := exec_cases_every_state i
  · exact inv_of_complete legalDelta_noFlags ((exec_rdflags s).symm.trans h)
  · exact inv_of_zero_answer ((exec_clrflags s).symm.trans h)
  · exact inv_of_zero_answer ((exec_reserved op s).symm.trans h)
  · exact inv_of_complete hd ((he s).symm.trans h)

/-- Every step establishes the invariant, whatever the state before it. -/
theorem inv_of_step {s t : State} (h : step s = .next t) : t.inv = true := by
  obtain ⟨-, hs⟩ | ⟨rest, -, hs⟩ | ⟨r, rest, -, hs⟩ := step_cases s <;> rw [hs] at h
  · cases h
    exact inv_of_response_none (idle_response s)
  · cases h
    exact inv_of_response_none (resetInstance_response _)
  · exact inv_of_exec h

/-- Settles O26, by the induction over runs: every step completes and establishes the invariant. -/
theorem runsNeverStopAndKeepAgreement : Obligations.RunsNeverStopAndKeepAgreement := by
  intro n s hs
  refine run_induction (P := fun s => s.inv = true) (fun s _ => ?_) n hs
  obtain ⟨t, ht⟩ := step_completes s
  exact ⟨t, ht, inv_of_step ht⟩

/-- Settles O13: the three ends of an instruction and the three kinds of step each answer a next state. -/
theorem everythingCompletes : Obligations.EverythingCompletes :=
  ⟨exec_completes, step_completes⟩

/-! ### Responses and the state -/

theorem responseOf_of_complete {i : Instr} {o : OpResult} {s : State} (h : exec i s = complete o s) :
    responseOf i s = some { result := o.result, delta := o.delta, flags := s.flags ||| o.delta, err := false } := by
  rw [responseOf, h, complete_eq_next]

theorem responseOf_clrflags (s : State) :
    responseOf .clrflags s = some { result := 0, delta := noFlags, flags := noFlags, err := false } := rfl

theorem responseOf_reserved (op : BitVec 4) (s : State) :
    responseOf (.reserved op) s = some { result := 0, delta := noFlags, flags := s.flags, err := true } := rfl

/-- Settles O21: apart from RDFLAGS, an instruction's end takes from the state FLAGS alone, and only for the response's copy of
FLAGS. -/
theorem operatorsIgnoreState : Obligations.OperatorsIgnoreState := by
  intro i s s' x x' hi hx hx'
  obtain rfl | rfl | ⟨op, rfl⟩ | ⟨o, -, he⟩ := exec_cases_every_state i
  · exact absurd rfl hi
  · rw [responseOf_clrflags] at hx hx'
    cases hx
    cases hx'
    exact ⟨rfl, rfl, rfl⟩
  · rw [responseOf_reserved] at hx hx'
    cases hx
    cases hx'
    exact ⟨rfl, rfl, rfl⟩
  · rw [responseOf_of_complete (he _)] at hx hx'
    cases hx
    cases hx'
    exact ⟨rfl, rfl, rfl⟩

/-! ### Decode under MAXMAG_OPERAND_MODE = CANONICAL (R7) -/

theorem fieldsValue_word_val {p : Word} (h : expField p ≠ 0) :
    (fieldsValue config (expField p) (fracField p)).val = wordMag p := by
  rw [fieldsValue_val, wordMag, if_neg h]

/-- The operand mode reaches no value but the one Decode chooses by it. -/
theorem decodeValue_canonical_mag (p : Word) :
    (decodeValue { config with operandMode := .canonical } p).mag =
      if expField p = 0 then Mag.ofNat 0
      else if expField p = 255 then maxMag config
      else fieldsValue config (expField p) (fracField p) := by
  simp only [decodeValue, and_true]
  rfl

/-- Settles O35, by the three kinds of exponent field: 0, 255 and those between. -/
theorem canonicalOperandsAreMaxMag : Obligations.CanonicalOperandsAreMaxMag := by
  intro p
  refine ⟨rfl, ?_⟩
  rw [decodeValue_canonical_mag]
  by_cases hzero : expField p = 0
  · have hmax : expField p ≠ 255 := by rw [hzero]; decide
    rw [if_pos hzero, if_neg hmax, wordMag, if_pos hzero, Mag.val_ofNat, Nat.cast_zero]
  · rw [if_neg hzero]
    by_cases hmax : expField p = 255
    · rw [if_pos hmax, if_pos hmax, maxMag_val]
    · rw [if_neg hmax, if_neg hmax, fieldsValue_word_val hzero]

/-! ### Raw numbers wider than a request (R13) -/

/-- Settles O6, by the two branches of decodeBits. -/
theorem overwideWordsRefused : Obligations.OverwideWordsRefused := by
  intro nbits w
  unfold decodeBits
  split
  · next h => exact ⟨(nomatch ·), fun hle => absurd h (not_lt.2 hle)⟩
  · next h => exact ⟨fun _ => not_lt.1 h, fun _ => rfl⟩

end Sys2Proof.Machine
end

section
/-! SUPPORT. Proofs of the statements about the state: the frame of every instruction, the state at reset, a step with nothing
issued, and the response as an output only. -/

namespace Sys2Proof.Machine

/-! ### The frame of an instruction (R22, R23, R195) -/

/-- Settles O22, by the three ends of an instruction: CLRFLAGS and the reserved codes answer with a FLAGS value of their own, and
every other one completes with its delta ORed in. -/
theorem instructionFrame : Obligations.InstructionFrame := by
  intro i s t h
  obtain ⟨rfl, he⟩ | ⟨op, rfl, he⟩ | ⟨hi, -, o, he⟩ := exec_cases i s <;> rw [he] at h
  · obtain ⟨hflags, hpending, hresponse⟩ := answer_cases h
    exact ⟨hpending, _, hresponse, hflags.symm, fun _ => hflags, absurd rfl⟩
  · obtain ⟨hflags, hpending, hresponse⟩ := answer_cases h
    have hgain : t.flags = s.flags ||| noFlags := hflags.trans BitVec.or_zero.symm
    exact ⟨hpending, _, hresponse, hflags.symm, (nomatch ·), fun _ => hgain⟩
  · obtain ⟨hflags, hpending, hresponse⟩ := complete_cases h
    exact ⟨hpending, _, hresponse, hflags.symm, fun hclr => absurd hclr hi, fun _ => hflags⟩

/-! ### The state at reset (R29, R30) -/

/-- Settles O10: FLAGS at reset is FLAGS_RESET, which is zero. -/
theorem resetLeavesNoFlags : Obligations.ResetLeavesNoFlags := by
  unfold Obligations.ResetLeavesNoFlags
  rw [reset_flags, config_flagsReset]
  decide

/-- Settles O27: the invariant holds wherever no response is shown. -/
theorem resetAgrees : Obligations.ResetAgrees := inv_of_response_none reset_response

/-! ### A step with nothing issued (R23) -/

theorem step_of_pending_nil {s : State} (h : s.pending = []) : step s = .next (idle s) := by
  rw [step, h]

/-- Settles O12: with nothing pending the step is idle, which writes the response alone. -/
theorem idleStepKeepsFlags : Obligations.IdleStepKeepsFlags := fun _ h => step_of_pending_nil h

/-! ### The response shown is an output only (R29) -/

section
variable (s : State) (x : Option Response)

theorem answer_ignores_response (r : Word) (d f : FlagSet) (e : Bool) :
    answer r d f e { s with response := x } = answer r d f e s := rfl

theorem complete_ignores_response (o : OpResult) : complete o { s with response := x } = complete o s :=
  answer_ignores_response s x ..

/-- RDFLAGS and the reserved codes take FLAGS from the state, and every other instruction's result and delta come from its
operands. -/
theorem exec_ignores_response (i : Instr) : exec i { s with response := x } = exec i s := by
  obtain rfl | rfl | ⟨op, rfl⟩ | ⟨o, -, he⟩ := exec_cases_every_state i
  · exact complete_ignores_response s x _
  · exact answer_ignores_response s x ..
  · exact answer_ignores_response s x ..
  · rw [he, he, complete_ignores_response]

end

/-- Settles O28, by the oldest input: an idle step and a reset show no response, and an instruction ignores the one shown. -/
theorem shownResponseIgnored : Obligations.ShownResponseIgnored := by
  intro ⟨f, pending, y⟩ x
  change step { flags := f, pending := pending, response := x } = step { flags := f, pending := pending, response := y }
  match pending with
  | [] => rw [step_idle, step_idle]
  | .request r :: rest =>
    rw [step_request, step_request]
    exact exec_ignores_response { flags := f, pending := rest, response := y } x (decode r)
  | .reset :: rest => rw [step_reset, step_reset]
  | .resetDuring r :: rest => rw [step_resetDuring, step_resetDuring]

end Sys2Proof.Machine
end

section
/-! SUPPORT. Proofs of the statements about sequences of inputs and about several contexts: the step of a request, what FLAGS
holds since the latest clear, and contexts that share nothing. -/

namespace Sys2Proof.Machine

/-! ### The step of a request (R45, R195) -/

/-- Settles O8: step's arm for a request adds nothing around exec. -/
theorem stepRunsDecodedInstruction : Obligations.StepRunsDecodedInstruction := by
  intro s r rest h
  rw [step, h]

/-! ### Several contexts (R47, R220) -/

section
variable {cs : List State} {n m : Fin cs.length} {t : State}

theorem stepContext_of_step (h : step cs[n] = .next t) : stepContext cs n = .next (cs.set n t) := by
  rw [stepContext, h]

/-- A context's step is its own wherever another context has got to. -/
theorem stepContext_set_of_ne {u : State} (hne : n ≠ m) (h : step cs[m] = .next t) :
    stepContext (cs.set n u) (m.cast List.length_set.symm) = .next ((cs.set n u).set m t) := by
  have hentry : (cs.set n u)[(m : Nat)]'(by simp) = cs[m] := List.getElem_set_ne (Fin.val_ne_of_ne hne) _
  exact stepContext_of_step ((congrArg step hentry).trans h)

end

/-- Settles O29: the step of a context writes that context's entry of the list alone. -/
theorem contextsShareNothing : Obligations.ContextsShareNothing := by
  intro cs n
  obtain ⟨t, ht⟩ := step_completes cs[n]
  exact ⟨cs.set n t, t, stepContext_of_step ht, List.length_set, ht, List.getElem?_set_self n.isLt,
    fun m hm => List.getElem?_set_ne hm.symm⟩

/-- Settles O30: each context's step finds its own entry whichever moves first, and writes to two entries commute. -/
theorem contextStepsCommute : Obligations.ContextStepsCommute := by
  intro cs n m hne
  obtain ⟨t, ht⟩ := step_completes cs[n]
  obtain ⟨u, hu⟩ := step_completes cs[m]
  refine ⟨cs.set n t, cs.set m u, (cs.set n t).set m u, List.length_set.symm, List.length_set.symm,
    stepContext_of_step ht, stepContext_set_of_ne hne hu, stepContext_of_step hu, ?_⟩
  rw [List.set_comm t u (Fin.val_ne_of_ne hne)]
  exact stepContext_set_of_ne hne.symm ht

/-! ### FLAGS over a sequence of transactions (R46, R196, R198) -/

/-- A run over issued requests takes them all and leaves what is issued beyond them, with FLAGS the fold of their effects. -/
theorem run_requests (f : FlagSet) (x : Option Response) (rs : List Request) (rest : List Input) :
    ∃ t : State,
      Host.Core.run Sys2Proof.core rs.length { flags := f, pending := rs.map .request ++ rest, response := x : State } =
        .next t ∧ t.pending = rest ∧ t.flags = rs.foldl flagsAfter f := by
  induction rs generalizing f x with
  | nil => exact ⟨_, run_zero _, rfl, rfl⟩
  | cons r rs ih =>
    obtain ⟨⟨g, pending, y⟩, hstep, rfl, rfl⟩ :=
      exec_flagsAfter r { flags := f, pending := rs.map .request ++ rest, response := x }
    obtain ⟨t, hrun, hpending, hflags⟩ := ih (flagsAfter f r) y
    exact ⟨t, (run_succ rs.length ((step_request ..).trans hstep)).trans hrun, hpending, hflags⟩

/-- Without a clear FLAGS only gains what each transaction raised (R196). -/
theorem foldl_flagsAfter_of_no_clear (f : FlagSet) {rs : List Request} (h : ∀ r ∈ rs, decode r ≠ .clrflags) :
    rs.foldl flagsAfter f = rs.foldl (fun acc r => acc ||| raised r) f :=
  List.foldl_ext _ _ _ fun acc r hr => flagsAfter_of_not_clear acc (h r hr)

theorem getLsbD_foldl_raised (f : FlagSet) (rs : List Request) (k : Nat) :
    (rs.foldl (fun acc r => acc ||| raised r) f).getLsbD k = true ↔
      f.getLsbD k = true ∨ ∃ r ∈ rs, (raised r).getLsbD k = true := by
  induction rs generalizing f with
  | nil => simp
  | cons r rs ih => rw [List.foldl_cons, ih, BitVec.getLsbD_or, Bool.or_eq_true, or_assoc, List.exists_mem_cons_iff]

/-! ### The two ends of such a sequence: a clear and a read -/

/-- CLRFLAGS, a reset and a transaction cut short by a reset each leave no flag (R198, R235, R237). -/
theorem step_of_clear (f : FlagSet) (x : Option Response) (rest : List Input) {clear : Input}
    (h : (∃ q, clear = .request q ∧ decode q = .clrflags) ∨ clear = .reset ∨ ∃ q, clear = .resetDuring q) :
    ∃ y, step { flags := f, pending := clear :: rest, response := x } =
      .next { flags := noFlags, pending := rest, response := y } := by
  obtain ⟨q, rfl, hq⟩ | rfl | ⟨q, rfl⟩ := h
  · rw [step_request, hq, exec_clrflags, answer_eq_next]
    exact ⟨_, rfl⟩
  · exact ⟨_, step_reset ..⟩
  · exact ⟨_, step_resetDuring ..⟩

/-- An RDFLAGS request answers FLAGS as a word and takes nothing else of what is issued (R197). -/
theorem step_of_read (f : FlagSet) (x : Option Response) (rest : List Input) {read : Request} (h : decode read = .rdflags) :
    ∃ t y, step { flags := f, pending := .request read :: rest, response := x } = .next t ∧
      t.pending = rest ∧ t.response = some y ∧ y.result = flagsWord f := by
  rw [step_request, h, exec_rdflags, complete_eq_next]
  exact ⟨_, _, rfl, rfl, rfl, rfl⟩

/-- FLAGS stands in bits 2:0 of its word, and bits 31:3 are zero (R21). -/
theorem getLsbD_flagsWord (f : FlagSet) {k : Nat} (hk : k < 32) :
    (flagsWord f).getLsbD k = true ↔ k < 3 ∧ f.getLsbD k = true := by
  rw [flagsWord, BitVec.getLsbD_setWidth, decide_eq_true hk, Bool.true_and]
  exact ⟨fun h => ⟨BitVec.lt_of_getLsbD h, h⟩, And.right⟩

/-- Settles O23: the clear leaves no flag, each transaction then ORs in what it raised, and the read answers what FLAGS has come
to. -/
theorem readShowsFlagsSinceClear : Obligations.ReadShowsFlagsSinceClear := by
  intro f x clear rs read rest hclear hread hrs
  obtain ⟨z, hfirst⟩ := step_of_clear f x (rs.map .request ++ .request read :: rest) hclear
  obtain ⟨⟨g, pending, z'⟩, hrun, rfl, rfl⟩ := run_requests noFlags z rs (.request read :: rest)
  obtain ⟨t, y, hlast, hpending, hresponse, hresult⟩ := step_of_read (rs.foldl flagsAfter noFlags) z' rest hread
  refine ⟨t, y, ?_, hpending, hresponse, fun k hk => ?_⟩
  · calc Host.Core.run Sys2Proof.core (rs.length + 2) _
        = Host.Core.run Sys2Proof.core (rs.length + 1) _ := run_succ _ hfirst
      _ = Host.Core.run Sys2Proof.core 1 _ := run_add _ 1 hrun
      _ = .next t := run_succ 0 hlast
  · rw [hresult, getLsbD_flagsWord _ hk, foldl_flagsAfter_of_no_clear _ hrs, getLsbD_foldl_raised]
    simp [noFlags]

end Sys2Proof.Machine
end

section
/-! SUPPORT. Proofs of the statements about encoding: requests, the decoder and the encoder, the opcode
table, and decoded requests in a step. -/

namespace Sys2Proof

/-! ### Requests and their packing (R56) -/

/-- Packing an unpacked request gives it back (R56). -/
theorem packRequest_unpackRequest (q : BitVec 100) : packRequest (unpackRequest q) = q := by
  apply BitVec.eq_of_getLsbD_eq
  intro i hi
  simp only [packRequest, unpackRequest, BitVec.getLsbD_append, BitVec.getLsbD_extractLsb']
  split_ifs with hc hb ha
  · simp [hc]
  · have hfield : 32 + (i - 32) = i := by omega
    simp [hb, hfield]
  · have hfield : 64 + (i - 32 - 32) = i := by omega
    simp [ha, hfield]
  · have hop : i - 32 - 32 - 32 < 4 := by omega
    have hfield : 96 + (i - 32 - 32 - 32) = i := by omega
    simp [hop, hfield]

/-- A table word of 13 bytes holds a packed request whole, so none is refused (R13, R56). -/
theorem decodeTableWord_toNat (q : BitVec 100) : decodeTableWord 104 q.toNat = some (decode (unpackRequest q)) := by
  have hlt : q.toNat < 2 ^ 100 := q.isLt
  have hmod : q.toNat % 2 ^ 104 = q.toNat := Nat.mod_eq_of_lt (hlt.trans (by decide))
  rw [decodeTableWord, decodeBits, hmod, if_pos hlt, BitVec.ofNat_toNat, BitVec.setWidth_eq]

/-- A raw number that decodes does so as the request in its low bits (R13). -/
theorem decode_of_decodeTableWord {nbits w : Nat} {i : Instr} (h : decodeTableWord nbits w = some i) :
    decode (unpackRequest (BitVec.ofNat 100 (w % 2 ^ nbits))) = i := by
  rw [decodeTableWord, decodeBits] at h
  by_cases hw : w % 2 ^ nbits < 2 ^ 100
  · rw [if_pos hw] at h
    exact Option.some.inj h
  · rw [if_neg hw] at h
    cases h

/-! ### The decoder by op code (R57, R68) -/

/-- An op code is a reserved one or one of the twelve operations' (R57). -/
theorem op_cases (op : BitVec 4) :
    0xC ≤ op.toNat ∨ op = 0x0 ∨ op = 0x1 ∨ op = 0x2 ∨ op = 0x3 ∨ op = 0x4 ∨ op = 0x5 ∨ op = 0x6 ∨ op = 0x7 ∨ op = 0x8 ∨
      op = 0x9 ∨ op = 0xA ∨ op = 0xB := by
  revert op
  decide

theorem decode_of_reserved_op {r : Request} (h : 0xC ≤ r.op.toNat) : decode r = .reserved r.op := by
  unfold decode
  split
  case h_13 => rfl
  all_goals omega

theorem decode_encode {i : Instr} (h : i.wellFormed = true) : decode (encode i) = i := by
  cases i with
  | reserved op => exact decode_of_reserved_op (of_decide_eq_true h)
  | _ => rfl

theorem wellFormed_decode (r : Request) : (decode r).wellFormed = true := by
  obtain ⟨op, a, b, c⟩ := r
  obtain h | rfl | rfl | rfl | rfl | rfl | rfl | rfl | rfl | rfl | rfl | rfl | rfl := op_cases op
  · rw [decode_of_reserved_op h]
    exact decide_eq_true h
  all_goals rfl

/-- A request with 0 in each operand word its op code does not read (R57). -/
def Request.zeroUnread (r : Request) : Request :=
  { op := r.op
    a := if r.op.toNat ≤ 9 then r.a else 0
    b := if r.op.toNat ≤ 5 then r.b else 0
    c := if r.op.toNat = 4 ∨ r.op.toNat = 5 then r.c else 0 }

theorem zeroUnread_of_reserved_op {r : Request} (h : 0xC ≤ r.op.toNat) :
    r.zeroUnread = { op := r.op, a := 0, b := 0, c := 0 } := by
  rw [Request.zeroUnread, if_neg (by omega), if_neg (by omega), if_neg (by omega)]

/-- The encoder undoes the decoder up to the operands that are not read (R58). -/
theorem encode_decode (r : Request) : encode (decode r) = r.zeroUnread := by
  obtain ⟨op, a, b, c⟩ := r
  obtain h | rfl | rfl | rfl | rfl | rfl | rfl | rfl | rfl | rfl | rfl | rfl | rfl := op_cases op
  · rw [decode_of_reserved_op h, zeroUnread_of_reserved_op h]
    rfl
  all_goals rfl

/-- The operands that are not read do not reach the decoded instruction (R58). -/
theorem decode_zeroUnread (r : Request) : decode r.zeroUnread = decode r := by
  rw [← encode_decode, decode_encode (wellFormed_decode r)]

/-- Settles O1: unpacking undoes packing, the table reads a request whole, and the decoder undoes the encoder. -/
theorem decodeInvertsEncode : Obligations.DecodeInvertsEncode := by
  intro i hi
  rw [decodeTableWord_toNat, unpackRequest_packRequest, decode_encode hi]
  exact ⟨rfl, rfl⟩

/-- Settles O2: the encoding of a decoded request is the request with zeros in the operands that are not read. -/
theorem encodeOfDecodeKeepsReadOperands : Obligations.EncodeOfDecodeKeepsReadOperands := by
  intro r
  rw [encode_decode]
  exact ⟨wellFormed_decode r, rfl, rfl, rfl, rfl⟩

/-! ### The opcode table (R57) -/

/-- Two rows that cover one request agree where both masks look. -/
theorem patterns_agree_of_covers {row row' : TableRow} {q : BitVec 100} (h : row.covers q = true)
    (h' : row'.covers q = true) : row.pattern &&& row'.mask = row'.pattern &&& row.mask := by
  rw [← eq_of_beq h, ← eq_of_beq h', BitVec.and_assoc, BitVec.and_assoc, BitVec.and_comm row.mask]

/-- Any two different rows differ in a bit that both masks take. -/
theorem opcodeTable_row_eq_of_patterns_agree : ∀ row ∈ opcodeTable, ∀ row' ∈ opcodeTable,
    row.pattern &&& row'.mask = row'.pattern &&& row.mask → row' = row := by
  decide

/-- Every row's mask lies in the op field. -/
theorem opcodeTable_mask_in_op : ∀ row ∈ opcodeTable, (0xF#4 ++ 0#96) &&& row.mask = row.mask := by
  decide

/-- Whether a row of the table covers a request is a matter of its op code. -/
theorem covers_congr_op {row : TableRow} {r r' : Request} (hmem : row ∈ opcodeTable) (hop : r.op = r'.op) :
    row.covers (packRequest r) = row.covers (packRequest r') := by
  rw [TableRow.covers, TableRow.covers, ← opcodeTable_mask_in_op row hmem, ← BitVec.and_assoc, ← BitVec.and_assoc,
    packRequest_and_opMask, packRequest_and_opMask, hop]

theorem tableRowOf (i : Instr) : Laws.TableRowOf.Statement i :=
  match i with
  | .add a b => Laws.TableRowOf.add a b
  | .sub a b => Laws.TableRowOf.sub a b
  | .mul a b => Laws.TableRowOf.mul a b
  | .div a b => Laws.TableRowOf.div a b
  | .madd a b c => Laws.TableRowOf.madd a b c
  | .msub a b c => Laws.TableRowOf.msub a b c
  | .sqrt a => Laws.TableRowOf.sqrt a
  | .rsqrt a => Laws.TableRowOf.rsqrt a
  | .rcp a => Laws.TableRowOf.rcp a
  | .classify a => Laws.TableRowOf.classify a
  | .rdflags => Laws.TableRowOf.rdflags
  | .clrflags => Laws.TableRowOf.clrflags
  | .reserved op => Laws.TableRowOf.reserved op

/-- Settles O4: the row of the decoded instruction covers its encoding, hence the request, which has the same op code; and no
request has two rows. -/
theorem exactlyOneTableRowCovers : Obligations.ExactlyOneTableRowCovers := by
  intro q
  obtain ⟨r, rfl⟩ : ∃ r, packRequest r = q := ⟨_, packRequest_unpackRequest q⟩
  rw [unpackRequest_packRequest]
  obtain ⟨row, hmem, hname, hcovers⟩ := tableRowOf (decode r) (wellFormed_decode r)
  have hop : r.op = (encode (decode r)).op := by rw [encode_decode, Request.zeroUnread]
  have hcovers : row.covers (packRequest r) = true := (covers_congr_op hmem hop).trans hcovers
  exact ⟨row, hmem, hcovers, hname, fun row' hmem' h' =>
    opcodeTable_row_eq_of_patterns_agree row hmem row' hmem' (patterns_agree_of_covers hcovers h')⟩

namespace Machine

/-! ### Decoded requests in a step (R58, R59, R199) -/

/-- Settles O5: requests that agree in what is read are one request after zeroing the rest, so they decode alike. -/
theorem unreadOperandsIgnored : Obligations.UnreadOperandsIgnored := by
  intro r r' f rest x hop ha hb hc
  have hzero : r.zeroUnread = r'.zeroUnread := by
    rw [Request.zeroUnread, Request.zeroUnread, ← hop, ite_congr rfl ha fun _ => rfl, ite_congr rfl hb fun _ => rfl,
      ite_congr rfl hc fun _ => rfl]
  rw [step_request, step_request, ← decode_zeroUnread r, hzero, decode_zeroUnread]

/-- Settles O9: the placed word stands first among what is pending, and decodes as the table reads it. -/
theorem fetchWordRunsNext : Obligations.FetchWordRunsNext := by
  intro s nbits w i h
  rw [stepRunsDecodedInstruction _ _ _ (withFetchWord_pending s nbits w), decode_of_decodeTableWord h]
  rfl

/-- Settles O17: such a request decodes to a reserved instruction, whose arm answers so. -/
theorem reservedCodesAnswerErr : Obligations.ReservedCodesAnswerErr := by
  intro r s h
  rw [decode_of_reserved_op h, exec_reserved]
  rfl

/-- Settles O18, by the three ends of an instruction: only the reserved codes' answer sets err. -/
theorem errOnlyForReservedCodes : Obligations.ErrOnlyForReservedCodes := by
  intro i s x hx
  obtain ⟨rfl, -⟩ | ⟨op, rfl, -⟩ | ⟨-, hnot, o, he⟩ := exec_cases i s
  · cases hx
    exact ⟨(nomatch ·), fun ⟨_, h⟩ => nomatch h⟩
  · cases hx
    exact ⟨fun _ => ⟨op, rfl⟩, fun _ => rfl⟩
  · rw [responseOf_of_complete he] at hx
    cases hx
    exact ⟨(nomatch ·), fun ⟨op, h⟩ => absurd h (hnot op)⟩

/-- Settles O25: each end of a step leaves a response that agrees with FLAGS, or none. -/
theorem stepEstablishesAgreement : Obligations.StepEstablishesAgreement := fun _ _ => inv_of_step

end Machine

end Sys2Proof
end

section
/-! SUPPORT. Proof of the statement about fixture texts: the words, the pieces of a text, and the rows (R66). -/

namespace Sys2Proof.Machine

/-! ### Hexadecimal digits and words -/

theorem hexValue_digit {d : Nat} (h : d < 16) : hexValue (hexDigits.getD d '0') = some d := by
  interval_cases d <;> rfl

/-- Reading the `k` digits of a number after `acc` gives `acc` shifted by them, plus the number's low part. -/
theorem hexNumber_hexText (k n acc : Nat) : hexNumber (hexText k n) acc = some (16 ^ k * acc + n % 16 ^ k) := by
  induction k generalizing acc with
  | zero => simp [hexText, hexNumber, Nat.mod_one]
  | succ k ih =>
    rw [hexText, hexNumber, hexValue_digit (Nat.mod_lt _ (by decide))]
    dsimp only
    rw [ih, Nat.mod_pow_succ]
    congr 1
    ring

theorem length_hexText (k n : Nat) : (hexText k n).length = k := by
  induction k with
  | zero => rfl
  | succ k ih => rw [hexText, List.length_cons, ih]

theorem mem_hexDigits_of_mem_hexText {k n : Nat} {ch : Char} (h : ch ∈ hexText k n) : ch ∈ hexDigits := by
  induction k with
  | zero => cases h
  | succ k ih =>
    rw [hexText, List.mem_cons] at h
    obtain rfl | h := h
    · have hlt : n / 16 ^ k % 16 < hexDigits.length := Nat.mod_lt _ (by decide)
      rw [List.getD_eq_getElem _ _ hlt]
      exact List.getElem_mem hlt
    · exact ih h

theorem length_wordText (p : Word) : (wordText p).length = 8 := length_hexText 8 _

theorem space_not_mem_wordText (p : Word) : ' ' ∉ wordText p := fun h =>
  absurd (mem_hexDigits_of_mem_hexText h) (by decide)

/-- A word is written as its digits alone, and x is no digit. -/
theorem parseWord_wordText (p : Word) : parseWord (wordText p) = some p := by
  have hlt : p.toNat < 16 ^ 8 := p.isLt
  have hread : hexNumber (wordText p) 0 = some p.toNat := by
    rw [wordText, hexNumber_hexText, Nat.mul_zero, Nat.zero_add, Nat.mod_eq_of_lt hlt]
  unfold parseWord
  dsimp only
  split
  · next rest htext =>
    have hx : 'x' ∈ wordText p := by simp [htext]
    exact absurd (mem_hexDigits_of_mem_hexText hx) (by decide)
  · rw [if_pos (length_wordText p), hread, Option.map_some, BitVec.ofNat_toNat, BitVec.setWidth_eq]

theorem parseWords_wordText (ws : List Word) : parseWords (ws.map wordText) = some ws := by
  induction ws with
  | nil => rfl
  | cons w ws ih => rw [List.map_cons, parseWords, parseWord_wordText, ih]

/-! ### Pieces between single spaces -/

/-- A text of single-spaced pieces. -/
def spaced (first : List Char) (pieces : List (List Char)) : List Char :=
  first ++ pieces.flatMap fun piece => ' ' :: piece

theorem spaced_cons (first piece : List Char) (pieces : List (List Char)) :
    spaced first (piece :: pieces) = first ++ ' ' :: spaced piece pieces := by
  simp [spaced]

/-- The characters up to a space, or to the end, are one piece. -/
theorem splitSpaces_append {piece : List Char} (h : ' ' ∉ piece) (rest read : List Char) :
    splitSpaces (piece ++ rest) read = splitSpaces rest (piece.reverse ++ read) := by
  induction piece generalizing read with
  | nil => rfl
  | cons ch piece ih =>
    obtain ⟨hch, hpiece⟩ := List.ne_and_not_mem_of_not_mem_cons h
    rw [List.cons_append, splitSpaces, if_neg hch.symm, ih hpiece, List.reverse_cons, List.append_assoc]
    rfl

theorem splitSpaces_spaced {first : List Char} {pieces : List (List Char)} (hfirst : ' ' ∉ first)
    (hpieces : ∀ piece ∈ pieces, ' ' ∉ piece) : splitSpaces (spaced first pieces) [] = first :: pieces := by
  induction pieces generalizing first with
  | nil => rw [spaced, List.flatMap_nil, splitSpaces_append hfirst, splitSpaces, List.append_nil, List.reverse_reverse]
  | cons piece pieces ih =>
    obtain ⟨hpiece, hrest⟩ := List.forall_mem_cons.1 hpieces
    rw [spaced_cons, splitSpaces_append hfirst, splitSpaces, if_pos rfl, ih hpiece hrest, List.append_nil,
      List.reverse_reverse]

/-! ### The issue text -/

theorem issueText_eq_spaced (i : Instr) : issueText i = spaced (issueMnemonic i) ((operands i).map wordText) := by
  rw [issueText, spaced, List.flatMap_map]

theorem space_not_mem_issueMnemonic (i : Instr) : ' ' ∉ issueMnemonic i := by
  cases i <;> simp [issueMnemonic]

/-- Among the operations that take as many words, a mnemonic names one. -/
theorem instrOf_issueMnemonic {i : Instr} (h : ∀ op, i ≠ .reserved op) :
    instrOf (issueMnemonic i) (operands i) = some i := by
  cases i with
  | reserved op => exact absurd rfl (h op)
  | _ => rfl

theorem parseIssuePieces_issue {i : Instr} (h : ∀ op, i ≠ .reserved op) :
    parseIssuePieces (issueMnemonic i :: (operands i).map wordText) = some i := by
  rw [parseIssuePieces, parseWords_wordText]
  exact instrOf_issueMnemonic h

theorem forall_wordText_no_space (ws : List Word) : ∀ piece ∈ ws.map wordText, ' ' ∉ piece :=
  List.forall_mem_map.2 fun p _ => space_not_mem_wordText p

theorem parseIssue_issueText {i : Instr} (h : ∀ op, i ≠ .reserved op) : parseIssue (issueText i) = some i := by
  rw [parseIssue, issueText_eq_spaced,
    splitSpaces_spaced (space_not_mem_issueMnemonic i) (forall_wordText_no_space _), parseIssuePieces_issue h]

/-! ### The fixture row -/

theorem parseFlagSet_flagSetText (d : FlagSet) : parseFlagSet (flagSetText d) = some d := by
  revert d
  decide

theorem space_not_mem_flagSetText (d : FlagSet) : ' ' ∉ flagSetText d := by
  revert d
  decide

/-- The arrow between an issue and what it answers. -/
def arrow : List Char := ['-', '>']

/-- The pieces after the first of a fixture row: the operand words, the arrow, the result and the flag set. -/
def fixturePieces (f : Fixture) : List (List Char) :=
  (operands f.instr).map wordText ++ [arrow, wordText f.result, flagSetText f.delta]

theorem fixtureText_eq_spaced (f : Fixture) :
    fixtureText f = spaced (issueMnemonic f.instr) (fixturePieces f) := by
  simp [fixtureText, issueText_eq_spaced, spaced, fixturePieces, arrow]

theorem fixturePieces_no_space (f : Fixture) : ∀ piece ∈ fixturePieces f, ' ' ∉ piece := by
  refine List.forall_mem_append.2 ⟨forall_wordText_no_space _, ?_⟩
  simp [arrow, space_not_mem_wordText, space_not_mem_flagSetText]

theorem issueMnemonic_ne_arrow (i : Instr) : issueMnemonic i ≠ arrow := by
  cases i <;> simp [issueMnemonic, arrow]

theorem wordText_ne_arrow (p : Word) : wordText p ≠ arrow := fun h =>
  absurd ((length_wordText p).symm.trans (congrArg List.length h)) (by decide)

theorem splitArrow_append {issue : List (List Char)} (h : ∀ piece ∈ issue, piece ≠ arrow) (rest : List (List Char)) :
    splitArrow (issue ++ arrow :: rest) = some (issue, rest) := by
  induction issue with
  | nil => exact if_pos rfl
  | cons piece issue ih =>
    obtain ⟨hpiece, hissue⟩ := List.forall_mem_cons.1 h
    rw [List.cons_append, splitArrow, ← arrow, if_neg hpiece, ih hissue, Option.map_some]

theorem parseFixture_fixtureText {f : Fixture} (h : ∀ op, f.instr ≠ .reserved op) :
    parseFixture (fixtureText f) = some f := by
  have hissue : ∀ piece ∈ issueMnemonic f.instr :: (operands f.instr).map wordText, piece ≠ arrow :=
    List.forall_mem_cons.2
      ⟨issueMnemonic_ne_arrow f.instr, List.forall_mem_map.2 fun p _ => wordText_ne_arrow p⟩
  have hpieces : splitArrow (splitSpaces (fixtureText f) []) =
      some (issueMnemonic f.instr :: (operands f.instr).map wordText, [wordText f.result, flagSetText f.delta]) := by
    rw [fixtureText_eq_spaced, splitSpaces_spaced (space_not_mem_issueMnemonic _) (fixturePieces_no_space f)]
    exact splitArrow_append hissue _
  rw [parseFixture, hpieces]
  dsimp only
  rw [parseIssuePieces_issue h, parseWord_wordText, parseFlagSet_flagSetText]

/-- Settles O7: the texts split into the pieces they were written from, and each piece reads back. -/
theorem fixtureTextReadsBack : Obligations.FixtureTextReadsBack := fun _ h =>
  ⟨parseIssue_issueText h, parseFixture_fixtureText h⟩

end Sys2Proof.Machine
end

section
/-! SUPPORT. Proofs of the statements about the classifier: the words of each class, the class code, and Class against Decode. -/

namespace Sys2Proof.Machine

/-! ### The fields of a word as numbers (R62) -/

theorem expField_eq_iff {p : Word} {e : BitVec 8} : expField p = e ↔ p.toNat / 2 ^ 23 % 2 ^ 8 = e.toNat := by
  rw [← BitVec.toNat_inj, expField, BitVec.extractLsb'_toNat, Nat.shiftRight_eq_div_pow]

theorem signBit_eq_decide (p : Word) : signBit p = decide (2 ^ 31 ≤ p.toNat) :=
  BitVec.msb_eq_decide p

/-! ### Class by the exponent field (R81) -/

section
variable {p : Word}

theorem valueClass_of_expField_zero (h : expField p = 0) :
    valueClass p = if signBit p then .negativeZero else .positiveZero := if_pos h

theorem valueClass_of_expField_max (h : expField p = 255) :
    valueClass p = if signBit p then .maxMagnitudeNegative else .maxMagnitudePositive := by
  rw [valueClass, h]
  rfl

theorem valueClass_of_expField_between (hzero : expField p ≠ 0) (hmax : expField p ≠ 255) :
    valueClass p = .normal := by
  rw [valueClass, if_neg hzero, if_neg hmax]

/-- What R81 asks of the fields of a word of each class. -/
def FieldsOfClass (p : Word) : ValueClass → Prop
  | .positiveZero => expField p = 0 ∧ signBit p = false
  | .negativeZero => expField p = 0 ∧ signBit p = true
  | .normal => expField p ≠ 0 ∧ expField p ≠ 255
  | .maxMagnitudePositive => expField p = 255 ∧ signBit p = false
  | .maxMagnitudeNegative => expField p = 255 ∧ signBit p = true

theorem fieldsOfClass_valueClass (p : Word) : FieldsOfClass p (valueClass p) := by
  by_cases hzero : expField p = 0
  · rw [valueClass_of_expField_zero hzero]
    cases hs : signBit p <;> exact ⟨hzero, hs⟩
  · by_cases hmax : expField p = 255
    · rw [valueClass_of_expField_max hmax]
      cases hs : signBit p <;> exact ⟨hmax, hs⟩
    · rw [valueClass_of_expField_between hzero hmax]
      exact ⟨hzero, hmax⟩

/-- The fields decide the class. -/
theorem valueClass_eq_iff {c : ValueClass} : valueClass p = c ↔ FieldsOfClass p c := by
  refine ⟨fun h => h ▸ fieldsOfClass_valueClass p, fun h => ?_⟩
  cases c with
  | normal => exact valueClass_of_expField_between h.1 h.2
  | positiveZero | negativeZero => rw [valueClass_of_expField_zero h.1, h.2]; rfl
  | maxMagnitudePositive | maxMagnitudeNegative => rw [valueClass_of_expField_max h.1, h.2]; rfl

theorem isZeroClass_iff : isZeroClass p = true ↔ expField p = 0 := by
  rw [isZeroClass, Bool.or_eq_true, beq_iff_eq, beq_iff_eq, valueClass_eq_iff, valueClass_eq_iff]
  cases hs : signBit p <;> simp [FieldsOfClass, hs]

theorem isMaxMagnitude_iff :
    valueClass p = .maxMagnitudePositive ∨ valueClass p = .maxMagnitudeNegative ↔ expField p = 255 := by
  rw [valueClass_eq_iff, valueClass_eq_iff]
  cases hs : signBit p <;> simp [FieldsOfClass, hs]

end

/-- Settles O32: the fields that R81 asks for, read as parts of the word's number. -/
theorem classesAreWordRanges : Obligations.ClassesAreWordRanges := by
  intro p
  have hlt : p.toNat < 2 ^ 32 := p.isLt
  have h0 : (0 : BitVec 8).toNat = 0 := rfl
  have h255 : (255 : BitVec 8).toNat = 255 := rfl
  simp only [valueClass_eq_iff, FieldsOfClass, ne_eq, expField_eq_iff, signBit_eq_decide, decide_eq_true_eq,
    decide_eq_false_iff_not, h0, h255]
  omega

/-! ### The CLASS result (R63, R86) -/

theorem bestEffort_eq_false {p : Word} (h : expField p ≠ 0 ∨ fracField p = 0) : bestEffort p = false :=
  decide_eq_false fun ⟨hexp, hfrac⟩ => h.elim (· hexp) hfrac

theorem bestEffort_eq_true {p : Word} (hexp : expField p = 0) (hfrac : fracField p ≠ 0) : bestEffort p = true :=
  decide_eq_true ⟨hexp, hfrac⟩

theorem classWord_eq (p : Word) : classWord p =
    if expField p = 0 then
      (if fracField p = 0 then (if signBit p then 0x1#32 else 0x0#32) else (if signBit p then 0x9#32 else 0x8#32))
    else if expField p = 255 then (if signBit p then 0x4#32 else 0x3#32)
    else 0x2#32 := by
  rw [classWord]
  by_cases hzero : expField p = 0
  · rw [if_pos hzero, valueClass_of_expField_zero hzero]
    by_cases hfrac : fracField p = 0
    · rw [if_pos hfrac, bestEffort_eq_false (.inr hfrac)]
      cases signBit p <;> rfl
    · rw [if_neg hfrac, bestEffort_eq_true hzero hfrac]
      cases signBit p <;> rfl
  · rw [if_neg hzero, bestEffort_eq_false (.inl hzero)]
    by_cases hmax : expField p = 255
    · rw [if_pos hmax, valueClass_of_expField_max hmax]
      cases signBit p <;> rfl
    · rw [if_neg hmax, valueClass_of_expField_between hzero hmax]
      rfl

theorem decode_of_classify_op {r : Request} (h : r.op = 0x9) : decode r = .classify r.a := by
  rw [decode, h]
  rfl

/-- An operation that ends through `complete` completes with that result and delta. -/
theorem completes_of_exec {i : Instr} {s : State} {w : Word} {d : FlagSet}
    (h : exec i s = complete { result := w, delta := d } s) : Completes i s w d :=
  h.trans (complete_eq_next _ s)

/-- Settles O31: CLASS completes with the class word, whose value the exponent and fraction fields and the sign decide. -/
theorem classifyAnswersClassCode : Obligations.ClassifyAnswersClassCode := by
  refine ⟨fun r => decode_of_classify_op, fun a s => ?_⟩
  rw [← classWord_eq]
  exact completes_of_exec (exec_classify a s)

/-! ### Decode under the default parameters (R80) -/

theorem wordMag_eq_zero_iff {p : Word} : wordMag p = 0 ↔ expField p = 0 := by
  refine ⟨fun h => ?_, fun h => if_pos h⟩
  by_contra hne
  rw [wordMag, if_neg hne] at h
  exact absurd h (by positivity)

/-- EXTENDED reads exponent field 255 as it reads the others. -/
theorem decodeValue_mag (p : Word) : (decodeValue config p).mag =
    if expField p = 0 then Mag.ofNat 0 else fieldsValue config (expField p) (fracField p) := by
  have hmode : ¬(expField p = 255 ∧ config.operandMode = .canonical) := fun h => nomatch h.2
  rw [decodeValue, if_neg hmode]

theorem decodeValue_mag_val (p : Word) : (decodeValue config p).mag.val = wordMag p := by
  rw [decodeValue_mag]
  by_cases hzero : expField p = 0
  · rw [if_pos hzero, wordMag_eq_zero_iff.2 hzero, Mag.val_ofNat, Nat.cast_zero]
  · rw [if_neg hzero, fieldsValue_word_val hzero]

/-- Settles O34: the sign is bit 31, and the magnitude is zero or what the fields spell. -/
theorem decodeGivesExactValue : Obligations.DecodeGivesExactValue := fun p => ⟨rfl, decodeValue_mag_val p⟩

/-! ### The magnitude of a word and its exponent field (R84) -/

/-- The least magnitude of a nonzero exponent field e is 2^(e − 127), with fraction 0. -/
theorem two_zpow_le_wordMag {p : Word} (h : expField p ≠ 0) :
    (2 : ℝ) ^ (((expField p).toNat : ℤ) - 127) ≤ wordMag p := by
  rw [wordMag, if_neg h]
  calc (2 : ℝ) ^ (((expField p).toNat : ℤ) - 127)
      = 2 ^ 23 * 2 ^ (((expField p).toNat : ℤ) - 150) := by
        rw [← zpow_natCast, ← zpow_add₀ two_ne_zero]; congr 1; push_cast; ring
    _ ≤ _ := by gcongr; exact le_add_of_nonneg_right (Nat.cast_nonneg _)

/-- The greatest magnitude of exponent field e has an all-ones fraction. -/
theorem wordMag_le_allOnes (p : Word) : wordMag p ≤ (2 ^ 24 - 1) * 2 ^ (((expField p).toNat : ℤ) - 150) := by
  by_cases h : expField p = 0
  · rw [wordMag_eq_zero_iff.2 h]
    exact mul_nonneg (by norm_num) (by positivity)
  · have hfrac : ((fracField p).toNat : ℝ) ≤ 2 ^ 23 - 1 := by
      have : (fracField p).toNat + 1 ≤ 2 ^ 23 := (fracField p).isLt
      rw [le_sub_iff_add_le]
      exact_mod_cast this
    rw [wordMag, if_neg h]
    gcongr
    linarith

/-- Between one exponent field and the next nothing is left out: all-ones at k stays below 2^(k − 126). -/
theorem allOnes_lt_two_zpow (k : ℤ) : ((2 : ℝ) ^ 24 - 1) * 2 ^ (k - 150) < 2 ^ (k - 126) := by
  calc ((2 : ℝ) ^ 24 - 1) * 2 ^ (k - 150) < 2 ^ 24 * 2 ^ (k - 150) := by gcongr; norm_num
    _ = 2 ^ (k - 126) := by rw [← zpow_natCast, ← zpow_add₀ two_ne_zero]; congr 1; push_cast; ring

/-- A magnitude reaches the least one of exponent field k exactly when its own field does. -/
theorem two_zpow_le_wordMag_iff {p : Word} {k : ℕ} (hk : 1 ≤ k) :
    (2 : ℝ) ^ ((k : ℤ) - 127) ≤ wordMag p ↔ k ≤ (expField p).toNat := by
  constructor
  · intro h
    have hlt : (2 : ℝ) ^ ((k : ℤ) - 127) < 2 ^ (((expField p).toNat : ℤ) - 126) :=
      (h.trans (wordMag_le_allOnes p)).trans_lt (allOnes_lt_two_zpow _)
    rw [zpow_lt_zpow_iff_right₀ one_lt_two] at hlt
    omega
  · intro h
    have hne : expField p ≠ 0 := fun hzero => by
      rw [hzero] at h
      exact absurd (hk.trans h) (by decide)
    exact (zpow_le_zpow_right₀ one_le_two (by omega)).trans (two_zpow_le_wordMag hne)

/-- A magnitude stays within the greatest one of exponent field k exactly when its own field does. -/
theorem wordMag_le_allOnes_iff {p : Word} {k : ℕ} :
    wordMag p ≤ (2 ^ 24 - 1) * 2 ^ ((k : ℤ) - 150) ↔ (expField p).toNat ≤ k := by
  constructor
  · intro h
    by_contra hlt
    have hnext : (2 : ℝ) ^ (((k + 1 : ℕ) : ℤ) - 127) ≤ wordMag p :=
      (two_zpow_le_wordMag_iff (Nat.le_add_left 1 k)).2 (not_le.1 hlt)
    refine absurd ((hnext.trans h).trans_lt (allOnes_lt_two_zpow k)) (not_lt.2 (le_of_eq ?_))
    congr 1
    push_cast
    ring
  · intro h
    refine (wordMag_le_allOnes p).trans ?_
    gcongr
    norm_num

/-- The magnitudes of exponent fields 1 to 254 are those from 2^−126 to (2^24 − 1) · 2^104. -/
theorem wordMag_normal_range_iff {p : Word} :
    2 ^ (-126 : ℤ) ≤ wordMag p ∧ wordMag p ≤ (2 ^ 24 - 1) * 2 ^ 104 ↔ expField p ≠ 0 ∧ expField p ≠ 255 := by
  have hlow : (2 : ℝ) ^ (-126 : ℤ) ≤ wordMag p ↔ 1 ≤ (expField p).toNat := two_zpow_le_wordMag_iff (k := 1) (le_refl 1)
  have hhigh : wordMag p ≤ (2 ^ 24 - 1) * 2 ^ 104 ↔ (expField p).toNat ≤ 254 := wordMag_le_allOnes_iff (k := 254)
  rw [hlow, hhigh]
  bv_omega

/-- The magnitudes of exponent field 255 are those from 2^128 to MAXMAG. -/
theorem wordMag_max_range_iff {p : Word} :
    2 ^ 128 ≤ wordMag p ∧ wordMag p ≤ maxMagnitude ↔ expField p = 255 := by
  have hlow : (2 : ℝ) ^ 128 ≤ wordMag p ↔ 255 ≤ (expField p).toNat := two_zpow_le_wordMag_iff (k := 255) (by decide)
  have hhigh : wordMag p ≤ maxMagnitude ↔ (expField p).toNat ≤ 255 := wordMag_le_allOnes_iff (k := 255)
  rw [hlow, hhigh]
  bv_omega

/-- Settles O33: the magnitude's range decides the exponent field, which with the sign decides the class. -/
theorem classAgreesWithValue : Obligations.ClassAgreesWithValue := by
  intro p
  have hsign : (decodeValue config p).sign = signBit p := rfl
  rw [hsign, decodeValue_mag_val, wordMag_normal_range_iff, wordMag_max_range_iff, wordMag_eq_zero_iff]
  refine ⟨isZeroClass_iff, valueClass_eq_iff, isMaxMagnitude_iff, ?_, ?_⟩
  all_goals
    rw [valueClass_eq_iff, valueClass_eq_iff]
    exact Or.rec And.right And.right

end Sys2Proof.Machine
end

section
/-! SUPPORT. Proofs of the statements about rounding: the rounding unit's intermediate, the words as representable magnitudes,
RoundPack against the real-valued rules, the carry of a policy, and AddCore. -/

namespace Sys2Proof.Machine

/-! ### The rounding unit's intermediate (R101) -/

theorem leastNormal_pos : 0 < leastNormal := zpow_pos two_pos _

theorem leastNormal_lt_maxMagnitude : leastNormal < maxMagnitude := by
  norm_num [leastNormal, maxMagnitude]

section
variable {y : Exact} (hy : y.proper) (hpos : 0 < y.val)
include hy hpos

/-- The exponent brackets y between a power of two and the next. -/
theorem intermediate_exponent_spec :
    (2 : ℝ) ^ (intermediate y).exponent ≤ y.val ∧ y.val < 2 ^ ((intermediate y).exponent + 1) :=
  Exact.floorLog2_spec hy hpos

theorem intermediate_exponent_eq_floor_logb : (intermediate y).exponent = ⌊Real.logb 2 y.val⌋ := by
  obtain ⟨hlo, hhi⟩ := intermediate_exponent_spec hy hpos
  refine (Int.floor_eq_iff.2 ⟨?_, ?_⟩).symm
  · rwa [Real.le_logb_iff_rpow_le one_lt_two hpos, Real.rpow_intCast]
  · rw [Real.logb_lt_iff_lt_rpow one_lt_two hpos]
    exact_mod_cast hhi

/-- W = floor(y · 2^(25 − E)) has exactly 26 bits. -/
theorem floorScaled_bounds :
    2 ^ 25 ≤ y.floorScaled (25 - (intermediate y).exponent) ∧
      y.floorScaled (25 - (intermediate y).exponent) < 2 ^ 26 := by
  obtain ⟨hlo, hhi⟩ := intermediate_exponent_spec hy hpos
  obtain ⟨hfloor, hceil⟩ := Exact.floorScaled_spec hy (25 - (intermediate y).exponent)
  generalize (intermediate y).exponent = e at hlo hhi hfloor hceil ⊢
  have hscale : (0 : ℝ) < 2 ^ (25 - e) := by positivity
  have hone : (2 : ℝ) ^ e * 2 ^ (25 - e) = 2 ^ 25 := by
    rw [← zpow_add₀ two_ne_zero, add_sub_cancel]
    norm_num
  have htwo : (2 : ℝ) ^ (e + 1) * 2 ^ (25 - e) = 2 ^ 26 := by
    rw [zpow_add_one₀ two_ne_zero, mul_right_comm, hone]
    norm_num
  constructor
  · rw [← Nat.lt_succ_iff]
    exact_mod_cast (hone.symm.le.trans (mul_le_mul_of_nonneg_right hlo hscale.le)).trans_lt hceil
  · exact_mod_cast hfloor.trans_lt ((mul_lt_mul_of_pos_right hhi hscale).trans_eq htwo)

/-- W is made of the significand and the guard and round bits. -/
theorem floorScaled_eq_bits :
    y.floorScaled (25 - (intermediate y).exponent) =
      4 * (intermediate y).sig.toNat + 2 * (intermediate y).guard.toNat + (intermediate y).round.toNat := by
  obtain ⟨-, hhi⟩ := floorScaled_bounds hy hpos
  have he : (intermediate y).exponent = y.floorLog2 := rfl
  rw [he] at hhi ⊢
  simp only [intermediate]
  generalize y.floorScaled (25 - y.floorLog2) = w at hhi ⊢
  simp only [BitVec.extractLsb'_toNat, BitVec.toNat_ofNat, BitVec.getLsbD_ofNat, Nat.toNat_testBit,
    Nat.shiftRight_eq_div_pow, Nat.reduceLT, decide_true, Bool.true_and]
  omega

/-- The significand is normalised. -/
theorem two_pow_le_sig : 2 ^ 23 ≤ (intermediate y).sig.toNat := by
  obtain ⟨hlo, -⟩ := floorScaled_bounds hy hpos
  have hbits := floorScaled_eq_bits hy hpos
  have hguard := (intermediate y).guard.toNat_le
  have hround := (intermediate y).round.toNat_le
  omega

/-- What the intermediate leaves out of y is less than a quarter of a unit in the last place, and the sticky bit says whether
it is anything. -/
theorem intermediate_decomposition :
    ∃ ε : ℝ, 0 ≤ ε ∧ ε < 1 / 4 ∧ ((intermediate y).sticky = true ↔ 0 < ε) ∧
      y.val = (((intermediate y).sig.toNat : ℝ) + (if (intermediate y).guard then 1 / 2 else 0) +
        (if (intermediate y).round then 1 / 4 else 0) + ε) * 2 ^ ((intermediate y).exponent - 23) := by
  obtain ⟨hfloor, hceil⟩ := Exact.floorScaled_spec hy (25 - (intermediate y).exponent)
  have hsticky : (intermediate y).sticky = true ↔ ¬y.scaledIsInt (25 - (intermediate y).exponent) = true := by
    rw [Bool.not_eq_true, ← Bool.not_eq_true']
    rfl
  rw [Exact.scaledIsInt_iff hy] at hsticky
  have hval : y.val = y.val * 2 ^ (25 - (intermediate y).exponent) / 4 * 2 ^ ((intermediate y).exponent - 23) := by
    have hcancel : (2 : ℝ) ^ (25 - (intermediate y).exponent) * 2 ^ ((intermediate y).exponent - 23) = 4 := by
      rw [← zpow_add₀ two_ne_zero]
      norm_num
    linear_combination -y.val / 4 * hcancel
  have hbits : (y.floorScaled (25 - (intermediate y).exponent) : ℝ) / 4 = (intermediate y).sig.toNat +
      (if (intermediate y).guard then 1 / 2 else 0) + (if (intermediate y).round then 1 / 4 else 0) := by
    rw [floorScaled_eq_bits hy hpos]
    cases (intermediate y).guard <;> cases (intermediate y).round <;> norm_num <;> ring
  refine ⟨(y.val * 2 ^ (25 - (intermediate y).exponent) - y.floorScaled (25 - (intermediate y).exponent)) / 4,
    by linarith, by linarith, ?_, ?_⟩
  · rw [hsticky, div_pos_iff_of_pos_right four_pos, sub_pos]
    exact ⟨fun hne => lt_of_le_of_ne hfloor hne, ne_of_lt⟩
  · rw [← hbits, ← add_div, add_sub_cancel]
    exact hval

/-- Dropping the bits below the significand truncates y. -/
theorem sig_bounds :
    ((intermediate y).sig.toNat : ℝ) * 2 ^ ((intermediate y).exponent - 23) ≤ y.val ∧
      y.val < ((intermediate y).sig.toNat + 1) * 2 ^ ((intermediate y).exponent - 23) := by
  obtain ⟨ε, hε, hε', -, hval⟩ := intermediate_decomposition hy hpos
  have hguard : (0 : ℝ) ≤ (if (intermediate y).guard then 1 / 2 else 0) ∧
      (if (intermediate y).guard then 1 / 2 else 0 : ℝ) ≤ 1 / 2 := by split <;> norm_num
  have hround : (0 : ℝ) ≤ (if (intermediate y).round then 1 / 4 else 0) ∧
      (if (intermediate y).round then 1 / 4 else 0 : ℝ) ≤ 1 / 4 := by split <;> norm_num
  exact ⟨(mul_le_mul_of_nonneg_right (by linarith) (by positivity)).trans_eq hval.symm,
    hval.trans_lt (mul_lt_mul_of_pos_right (by linarith) (by positivity))⟩

end

/-- In range the exponent is one that exponent fields 1 to 255 hold. -/
theorem intermediate_exponent_range {y : Exact} (hy : y.proper) (hlo : leastNormal ≤ y.val)
    (hhi : y.val ≤ maxMagnitude) : -126 ≤ (intermediate y).exponent ∧ (intermediate y).exponent ≤ 128 := by
  obtain ⟨hle, hlt⟩ := intermediate_exponent_spec hy (leastNormal_pos.trans_le hlo)
  have hbelow := hlo.trans_lt hlt
  have habove : (2 : ℝ) ^ (intermediate y).exponent < 2 ^ (129 : ℤ) :=
    (hle.trans hhi).trans_lt (by norm_num [maxMagnitude])
  rw [leastNormal, zpow_lt_zpow_iff_right₀ one_lt_two] at hbelow
  rw [zpow_lt_zpow_iff_right₀ one_lt_two] at habove
  omega

/-- Settles O36: y · 2^(25 − E) is W and a fraction, and W is the significand above the guard and round bits. -/
theorem intermediateIsExact : Obligations.IntermediateIsExact := by
  intro y hy hlo hhi
  have hpos : 0 < y.val := leastNormal_pos.trans_le hlo
  obtain ⟨hmin, hmax⟩ := intermediate_exponent_range hy hlo hhi
  have hmsb : (intermediate y).sig.getLsbD 23 = true :=
    (BitVec.msb_eq_decide (intermediate y).sig).trans (decide_eq_true (two_pow_le_sig hy hpos))
  exact ⟨intermediate_exponent_eq_floor_logb hy hpos, hmin, hmax, hmsb, intermediate_decomposition hy hpos⟩

/-! ### The representable magnitudes are those of the words (R109) -/

theorem wordMag_nonneg (w : Word) : 0 ≤ wordMag w := by
  unfold wordMag
  split <;> positivity

theorem wordMag_le_maxMagnitude (w : Word) : wordMag w ≤ maxMagnitude :=
  (wordMag_le_allOnes_iff (k := 255)).2 (Nat.le_of_lt_succ (expField w).isLt)

theorem representable_wordMag {w : Word} (h : expField w ≠ 0) : Representable (wordMag w) :=
  ⟨(expField w).toNat, (fracField w).toNat, by bv_omega, Nat.le_of_lt_succ (expField w).isLt, (fracField w).isLt,
    if_neg h⟩

theorem exists_word_of_representable {v : ℝ} (h : Representable v) : ∃ w, expField w ≠ 0 ∧ wordMag w = v := by
  obtain ⟨e, f, he, he', hf, rfl⟩ := h
  have hexp : (BitVec.ofNat 8 e).toNat = e := Nat.mod_eq_of_lt (by omega)
  have hfrac : (BitVec.ofNat 23 f).toNat = f := Nat.mod_eq_of_lt hf
  have hne : BitVec.ofNat 8 e ≠ 0 := by bv_omega
  refine ⟨packWord false (BitVec.ofNat 8 e) (BitVec.ofNat 23 f), ?_, ?_⟩
  · rwa [expField_packWord]
  · rw [wordMag, expField_packWord, if_neg hne, fracField_packWord, hexp, hfrac]

theorem representable_bounds {v : ℝ} (h : Representable v) : leastNormal ≤ v ∧ v ≤ maxMagnitude := by
  obtain ⟨w, hw, rfl⟩ := exists_word_of_representable h
  have hexp : 1 ≤ (expField w).toNat := by bv_omega
  exact ⟨(two_zpow_le_wordMag_iff (k := 1) (le_refl 1)).2 hexp, wordMag_le_maxMagnitude w⟩

/-- A greater magnitude has no smaller exponent field. -/
theorem expField_le_of_wordMag_le {w w' : Word} (hw : expField w ≠ 0) (h : wordMag w ≤ wordMag w') :
    (expField w).toNat ≤ (expField w').toNat :=
  (two_zpow_le_wordMag_iff (by bv_omega)).1 ((two_zpow_le_wordMag hw).trans h)

/-- A word is determined by its sign and a nonzero magnitude. -/
theorem eq_of_wordMag_eq {w w' : Word} (hsign : signBit w = signBit w') (hw : expField w ≠ 0) (hw' : expField w' ≠ 0)
    (h : wordMag w = wordMag w') : w = w' := by
  have hexp : expField w = expField w' :=
    BitVec.eq_of_toNat_eq ((expField_le_of_wordMag_le hw h.le).antisymm (expField_le_of_wordMag_le hw' h.ge))
  have hfrac : fracField w = fracField w' := by
    rw [wordMag, wordMag, if_neg hw, if_neg hw', hexp, mul_left_inj' (by positivity), add_right_inj] at h
    exact BitVec.eq_of_toNat_eq (by exact_mod_cast h)
  rw [← packWord_fields w, ← packWord_fields w', hsign, hexp, hfrac]

/-- A nonzero word counts units of its last place: its significand, the leading 1 included, of them. -/
theorem wordMag_eq_mul {w : Word} (h : expField w ≠ 0) :
    wordMag w = ((2 ^ 23 + (fracField w).toNat : ℕ) : ℝ) * 2 ^ (((expField w).toNat : ℤ) - 150) := by
  rw [wordMag, if_neg h, Nat.cast_add, Nat.cast_pow, Nat.cast_ofNat]

/-- One unit in the last place above a word is at most the least magnitude of the next exponent field. -/
theorem wordMag_add_ulp_le (w : Word) :
    wordMag w + 2 ^ (((expField w).toNat : ℤ) - 150) ≤ 2 ^ (((expField w).toNat : ℤ) - 126) := by
  calc wordMag w + 2 ^ (((expField w).toNat : ℤ) - 150)
      ≤ (2 ^ 24 - 1) * 2 ^ (((expField w).toNat : ℤ) - 150) + 2 ^ (((expField w).toNat : ℤ) - 150) := by
        gcongr
        exact wordMag_le_allOnes w
    _ = 2 ^ (24 : ℤ) * 2 ^ (((expField w).toNat : ℤ) - 150) := by norm_num; ring
    _ = 2 ^ (((expField w).toNat : ℤ) - 126) := by rw [← zpow_add₀ two_ne_zero]; congr 1; ring

/-- No word's magnitude lies strictly between a word's and one unit in the last place above it. -/
theorem wordMag_le_of_lt_add_ulp {w w' : Word} (hw : expField w ≠ 0) (hw' : expField w' ≠ 0)
    (h : wordMag w < wordMag w' + 2 ^ (((expField w').toNat : ℤ) - 150)) : wordMag w ≤ wordMag w' := by
  have hle : (expField w).toNat ≤ (expField w').toNat := by
    have hlt := ((two_zpow_le_wordMag hw).trans_lt h).trans_le (wordMag_add_ulp_le w')
    rw [zpow_lt_zpow_iff_right₀ one_lt_two] at hlt
    omega
  rcases hle.lt_or_eq with hlt | heq
  · calc wordMag w ≤ (2 ^ 24 - 1) * 2 ^ (((expField w).toNat : ℤ) - 150) := wordMag_le_allOnes w
      _ ≤ 2 ^ (((expField w).toNat : ℤ) - 126) := (allOnes_lt_two_zpow _).le
      _ ≤ 2 ^ (((expField w').toNat : ℤ) - 127) := zpow_le_zpow_right₀ one_le_two (by omega)
      _ ≤ wordMag w' := two_zpow_le_wordMag hw'
  · rw [wordMag_eq_mul hw, wordMag_eq_mul hw', heq, ← add_one_mul, mul_lt_mul_iff_left₀ (by positivity)] at h
    rw [wordMag_eq_mul hw, wordMag_eq_mul hw', heq]
    have hfrac : 2 ^ 23 + (fracField w).toNat < 2 ^ 23 + (fracField w').toNat + 1 := by exact_mod_cast h
    gcongr
    omega

/-! ### RoundPack by the range of the exact result (R104 to R106) -/

theorem zeroWord_eq_signedZero (s : Bool) : zeroWord s = signedZero s := by cases s <;> rfl

theorem maxMagWord_eq_clampWord (s : Bool) : maxMagWord config s = clampWord s := by cases s <;> rfl

section
variable {y : Exact} (hy : y.proper)
include hy

theorem exceeds_maxMag_iff : y.exceeds (maxMag config) = true ↔ maxMagnitude < y.val := by
  rw [Exact.exceeds_iff hy (den_pos_maxMag config), maxMag_val]

theorem isBelow_minNormal_iff : y.isBelow (minNormal config) = true ↔ y.val < leastNormal := by
  rw [Exact.isBelow_iff hy (den_pos_minNormal config) (minNormal_val ▸ leastNormal_pos), minNormal_val]

theorem roundPack_above (s : Bool) (h : maxMagnitude < y.val) :
    roundPack config s y = { result := clampWord s, delta := flagO } := by
  rw [roundPack, if_pos ((exceeds_maxMag_iff hy).2 h), maxMagWord_eq_clampWord]

theorem roundPack_below (s : Bool) (h : y.val < leastNormal) :
    roundPack config s y = { result := signedZero s, delta := flagU } := by
  have hmax : ¬y.exceeds (maxMag config) = true :=
    mt (exceeds_maxMag_iff hy).1 (h.trans leastNormal_lt_maxMagnitude).not_gt
  rw [roundPack, if_neg hmax, if_pos ((isBelow_minNormal_iff hy).2 h), zeroWord_eq_signedZero]

/-- In range any policy's answer ends the result; the thresholds do not depend on the policy. -/
theorem roundPack_inRange (p : RoundPolicy) (s : Bool) (hlo : leastNormal ≤ y.val) (hhi : y.val ≤ maxMagnitude) :
    roundPack { config with roundPolicy := p } s y =
      packRounded config s (intermediate y).exponent
        (p { sign := s, sig := (intermediate y).sig, guard := (intermediate y).guard,
             round := (intermediate y).round, sticky := (intermediate y).sticky }) := by
  have hmax : ¬y.exceeds (maxMag config) = true := mt (exceeds_maxMag_iff hy).1 hhi.not_gt
  have hmin : ¬y.isBelow (minNormal config) = true := mt (isBelow_minNormal_iff hy).1 hlo.not_gt
  exact (if_neg hmax).trans (if_neg hmin)

end

/-- Settles O38: MAXMAG_PATTERN below the sign is the clamp word. -/
theorem roundPackClampsOverflow : Obligations.RoundPackClampsOverflow := fun s _ hy h => roundPack_above hy s h

/-- Settles O39: MIN_NORMAL is 2^−126. -/
theorem roundPackFlushesUnderflow : Obligations.RoundPackFlushesUnderflow := fun s _ hy _ h => roundPack_below hy s h

/-! ### The carry of a policy (R108) -/

theorem packRounded_of_carry (s : Bool) (e : Int) {r : RoundOutput} (h : r.carry = true) :
    packRounded config s e r =
      if e + 1 > 128 then { result := clampWord s, delta := flagO }
      else { result := packWord s (BitVec.ofInt 8 (e + 1 + 127)) r.frac, delta := noFlags } := by
  rw [packRounded, if_pos h, maxMagWord_eq_clampWord]
  rfl

theorem packRounded_of_no_carry (s : Bool) {e : Int} (he : e ≤ 128) {r : RoundOutput} (h : r.carry = false) :
    packRounded config s e r = { result := packWord s (BitVec.ofInt 8 (e + 127)) r.frac, delta := noFlags } := by
  have hmax : ¬e > 255 - config.expBias := not_lt.2 he
  rw [packRounded, h]
  exact if_neg hmax

/-- Settles O41: in range the policy's carry reaches the end of RoundPack, and the contract clears the mantissa. -/
theorem carryGoesIntoExponent : Obligations.CarryGoesIntoExponent := by
  refine ⟨fun p s y hp hy hlo hhi hcarry => ?_, fun _ => rfl⟩
  rw [roundPack_inRange hy p s hlo hhi, packRounded_of_carry s _ hcarry, hp _ hcarry]
  rfl

/-! ### RZ truncates to the greatest representable magnitude (R104, R109) -/

/-- The word RZ makes of the intermediate of an exact y in range: its exponent and its significand without the leading 1. -/
def truncatedWord (s : Bool) (y : Exact) : Word :=
  packWord s (BitVec.ofInt 8 ((intermediate y).exponent + 127)) ((intermediate y).sig.extractLsb' 0 23)

section
variable {y : Exact} (hy : y.proper) (hlo : leastNormal ≤ y.val) (hhi : y.val ≤ maxMagnitude)
include hy hlo hhi

theorem roundPack_eq_truncatedWord (s : Bool) :
    roundPack config s y = { result := truncatedWord s y, delta := noFlags } := by
  obtain ⟨-, hmax⟩ := intermediate_exponent_range hy hlo hhi
  exact (roundPack_inRange hy roundTowardZero s hlo hhi).trans (packRounded_of_no_carry s hmax rfl)

theorem expField_truncatedWord (s : Bool) :
    ((expField (truncatedWord s y)).toNat : ℤ) = (intermediate y).exponent + 127 := by
  obtain ⟨hmin, hmax⟩ := intermediate_exponent_range hy hlo hhi
  rw [truncatedWord, expField_packWord, BitVec.toNat_ofInt]
  omega

theorem expField_truncatedWord_ne_zero (s : Bool) : expField (truncatedWord s y) ≠ 0 := by
  obtain ⟨hmin, -⟩ := intermediate_exponent_range hy hlo hhi
  have hexp := expField_truncatedWord hy hlo hhi s
  bv_omega

theorem wordMag_truncatedWord (s : Bool) :
    wordMag (truncatedWord s y) = (intermediate y).sig.toNat * 2 ^ ((intermediate y).exponent - 23) := by
  have hexp : (intermediate y).exponent + 127 - 150 = (intermediate y).exponent - 23 := by ring
  have hsig : 2 ^ 23 + (fracField (truncatedWord s y)).toNat = (intermediate y).sig.toNat := by
    have hnorm := two_pow_le_sig hy (leastNormal_pos.trans_le hlo)
    have hlt := (intermediate y).sig.isLt
    rw [truncatedWord, fracField_packWord, BitVec.extractLsb'_toNat, Nat.shiftRight_zero]
    omega
  rw [wordMag_eq_mul (expField_truncatedWord_ne_zero hy hlo hhi s), expField_truncatedWord hy hlo hhi, hexp, hsig]

/-- The truncated word is the greatest representable magnitude not above y: one unit in the last place more exceeds y. -/
theorem packsTo_truncatedWord (s : Bool) : PacksTo s y.val (truncatedWord s y) noFlags := by
  obtain ⟨hle, hlt⟩ := sig_bounds hy (leastNormal_pos.trans_le hlo)
  have hmag := wordMag_truncatedWord hy hlo hhi s
  have hne := expField_truncatedWord_ne_zero hy hlo hhi s
  have hexp : ((expField (truncatedWord s y)).toNat : ℤ) - 150 = (intermediate y).exponent - 23 := by
    rw [expField_truncatedWord hy hlo hhi]
    ring
  refine .inr (.inr ⟨hlo, hhi, rfl, signBit_packWord _ _ _, hne, hmag.trans_le hle, fun v hv hvy => ?_⟩)
  obtain ⟨w, hw, rfl⟩ := exists_word_of_representable hv
  refine wordMag_le_of_lt_add_ulp hw hne (hvy.trans_lt ?_)
  rwa [hmag, hexp, ← add_one_mul]

end

/-! ### RoundPack and the rules (R104 to R106, R109) -/

/-- RoundPack answers a result and delta that the rules give. -/
theorem packsTo_roundPack {y : Exact} (hy : y.proper) (s : Bool) :
    PacksTo s y.val (roundPack config s y).result (roundPack config s y).delta := by
  rcases lt_or_ge maxMagnitude y.val with habove | hhi
  · rw [roundPack_above hy s habove]
    exact .inl ⟨habove, rfl, rfl⟩
  · rcases lt_or_ge y.val leastNormal with hbelow | hlo
    · rw [roundPack_below hy s hbelow]
      exact .inr (.inl ⟨hbelow, rfl, rfl⟩)
    · rw [roundPack_eq_truncatedWord hy hlo hhi]
      exact packsTo_truncatedWord hy hlo hhi s

/-! The three ranges of an exact result exclude each other, so in each the rules have one case. -/

section
variable {s : Bool} {y : ℝ} {w w' : Word} {d d' : FlagSet}

theorem packsTo_above_iff (h : maxMagnitude < y) : PacksTo s y w d ↔ w = clampWord s ∧ d = flagO := by
  have hlow : ¬y < leastNormal := (leastNormal_lt_maxMagnitude.trans h).not_gt
  simp [PacksTo, h, hlow, flagO]

theorem packsTo_below_iff (h : y < leastNormal) : PacksTo s y w d ↔ w = signedZero s ∧ d = flagU := by
  have hhigh : ¬maxMagnitude < y := (h.trans leastNormal_lt_maxMagnitude).not_gt
  simp [PacksTo, h, hhigh, flagU]

theorem packsTo_inRange_iff (hlo : leastNormal ≤ y) (hhi : y ≤ maxMagnitude) :
    PacksTo s y w d ↔ d = noFlags ∧ signBit w = s ∧ expField w ≠ 0 ∧ wordMag w ≤ y ∧
      ∀ v, Representable v → v ≤ y → v ≤ wordMag w := by
  simp [PacksTo, hlo, hhi, hlo.not_gt, hhi.not_gt, noFlags]

theorem packsTo_unique (h : PacksTo s y w d) (h' : PacksTo s y w' d') : w = w' ∧ d = d' := by
  rcases lt_or_ge maxMagnitude y with habove | hhi
  · rw [packsTo_above_iff habove] at h h'
    exact ⟨h.1.trans h'.1.symm, h.2.trans h'.2.symm⟩
  · rcases lt_or_ge y leastNormal with hbelow | hlo
    · rw [packsTo_below_iff hbelow] at h h'
      exact ⟨h.1.trans h'.1.symm, h.2.trans h'.2.symm⟩
    · rw [packsTo_inRange_iff hlo hhi] at h h'
      obtain ⟨rfl, rfl, hne, hle, hgreatest⟩ := h
      obtain ⟨rfl, hsign, hne', hle', hgreatest'⟩ := h'
      have hmag : wordMag w = wordMag w' :=
        (hgreatest' _ (representable_wordMag hne) hle).antisymm (hgreatest _ (representable_wordMag hne') hle')
      exact ⟨eq_of_wordMag_eq hsign.symm hne hne' hmag, rfl⟩

end

theorem packsTo_iff_roundPack {y : Exact} (hy : y.proper) {s : Bool} {w : Word} {d : FlagSet} :
    PacksTo s y.val w d ↔ roundPack config s y = { result := w, delta := d } := by
  constructor
  · intro h
    obtain ⟨hw, hd⟩ := packsTo_unique (packsTo_roundPack hy s) h
    rw [← hw, ← hd]
  · intro h
    have hpacks := packsTo_roundPack hy s
    rwa [h] at hpacks

/-- Settles O57: RoundPack answers what the rules give, and in each of the three ranges the rules give one result, in range
because two greatest representable magnitudes are equal. -/
theorem packedResultIsUnique : Obligations.PackedResultIsUnique :=
  ⟨fun _ _ _ _ hy _ => packsTo_iff_roundPack hy, fun _ _ _ _ _ _ => packsTo_unique⟩

/-! ### Consequences of the rules (R107, R109) -/

theorem signBit_signedZero (s : Bool) : signBit (signedZero s) = s := by cases s <;> rfl

theorem signBit_clampWord (s : Bool) : signBit (clampWord s) = s := by cases s <;> rfl

theorem wordMag_signedZero (s : Bool) : wordMag (signedZero s) = 0 :=
  wordMag_eq_zero_iff.2 (by cases s <;> rfl)

theorem wordMag_clampWord (s : Bool) : wordMag (clampWord s) = maxMagnitude := by
  have hexp : (expField (clampWord s)).toNat = 255 := by cases s <;> rfl
  have hfrac : (fracField (clampWord s)).toNat = 2 ^ 23 - 1 := by cases s <;> rfl
  have hne : expField (clampWord s) ≠ 0 := by bv_omega
  rw [wordMag, if_neg hne, hexp, hfrac]
  norm_num [maxMagnitude]

section
variable {s : Bool} {y z : ℝ} {w w' : Word} {d d' : FlagSet}

theorem signBit_of_packsTo (h : PacksTo s y w d) : signBit w = s := by
  obtain ⟨-, rfl, -⟩ | ⟨-, rfl, -⟩ | ⟨-, -, -, hsign, -⟩ := h
  · exact signBit_clampWord s
  · exact signBit_signedZero s
  · exact hsign

theorem wordMag_of_packsTo_representable (hy : Representable y) (h : PacksTo s y w d) : wordMag w = y ∧ d = noFlags := by
  obtain ⟨hlo, hhi⟩ := representable_bounds hy
  obtain ⟨hd, -, -, hle, hgreatest⟩ := (packsTo_inRange_iff hlo hhi).1 h
  exact ⟨hle.antisymm (hgreatest y hy le_rfl), hd⟩

/-- The packed magnitude is monotone: zero below the range, the greatest magnitude above it, and the greatest representable
one not above the exact result between them. -/
theorem wordMag_le_of_packsTo (hyz : y ≤ z) (h : PacksTo s y w d) (h' : PacksTo s z w' d') : wordMag w ≤ wordMag w' := by
  obtain ⟨-, rfl, -⟩ | ⟨hz, rfl, -⟩ | ⟨-, hz, -, -, -, -, hgreatest⟩ := h'
  · exact (wordMag_le_maxMagnitude w).trans_eq (wordMag_clampWord s).symm
  · rw [((packsTo_below_iff (hyz.trans_lt hz)).1 h).1]
  · obtain ⟨hy, -⟩ | ⟨-, rfl, -⟩ | ⟨-, -, -, -, hne, hle, -⟩ := h
    · exact absurd (hy.trans_le hyz) hz.not_gt
    · exact (wordMag_signedZero s).trans_le (wordMag_nonneg w')
    · exact hgreatest _ (representable_wordMag hne) (hle.trans hyz)

end

/-- Settles O37: each clause is a consequence of the rules, which RoundPack's answer meets. -/
theorem roundPackTruncates : Obligations.RoundPackTruncates := by
  refine ⟨fun s y hy hlo hhi => ?_, fun s y hy hrep => wordMag_of_packsTo_representable hrep (packsTo_roundPack hy s),
    fun s y z hy hz _ hyz => wordMag_le_of_packsTo hyz (packsTo_roundPack hy s) (packsTo_roundPack hz s),
    fun s y hy _ => signBit_of_packsTo (packsTo_roundPack hy s)⟩
  obtain ⟨hdelta, -, hne, hle, hgreatest⟩ := (packsTo_inRange_iff hlo hhi).1 (packsTo_roundPack hy s)
  exact ⟨hdelta, representable_wordMag hne, hle, hgreatest⟩

/-- The pattern of exponent field 255 and fraction 0, whose magnitude is 2^128 (R107). -/
def infinityPattern (s : Bool) : Word := if s then 0xFF800000 else 0x7F800000

theorem signBit_infinityPattern (s : Bool) : signBit (infinityPattern s) = s := by cases s <;> rfl

theorem expField_infinityPattern (s : Bool) : expField (infinityPattern s) = 255 := by cases s <;> rfl

theorem fracField_infinityPattern (s : Bool) : fracField (infinityPattern s) = 0 := by cases s <;> rfl

theorem clampWord_ne_infinityPattern (s t : Bool) : clampWord s ≠ infinityPattern t := by
  revert s t
  decide

theorem expField_infinityPattern_ne_zero (s : Bool) : expField (infinityPattern s) ≠ 0 := by
  rw [expField_infinityPattern]
  decide

theorem wordMag_infinityPattern (s : Bool) : wordMag (infinityPattern s) = 2 ^ 128 := by
  rw [wordMag_eq_mul (expField_infinityPattern_ne_zero s), expField_infinityPattern, fracField_infinityPattern]
  have hexp : ((255 : BitVec 8).toNat : ℤ) - 150 = 105 := rfl
  have hsig : 2 ^ 23 + (0 : BitVec 23).toNat = 2 ^ 23 := rfl
  rw [hexp, hsig]
  norm_num

/-- Between 2^128 and the next representable magnitude the rules give the pattern of 2^128. -/
theorem packsTo_infinityPattern (s : Bool) {y : ℝ} (hlo : 2 ^ 128 ≤ y) (hhi : y < 2 ^ 128 + 2 ^ 105) :
    PacksTo s y (infinityPattern s) noFlags := by
  have hmin : leastNormal ≤ y := le_trans (by norm_num [leastNormal]) hlo
  have hmax : y ≤ maxMagnitude := hhi.le.trans (by norm_num [maxMagnitude])
  have hne := expField_infinityPattern_ne_zero s
  have hle : wordMag (infinityPattern s) ≤ y := (wordMag_infinityPattern s).trans_le hlo
  refine (packsTo_inRange_iff hmin hmax).2 ⟨rfl, signBit_infinityPattern s, hne, hle, fun v hv hvy => ?_⟩
  obtain ⟨w, hw, rfl⟩ := exists_word_of_representable hv
  refine wordMag_le_of_lt_add_ulp hw hne (hvy.trans_lt ?_)
  rw [wordMag_infinityPattern, expField_infinityPattern]
  exact hhi

/-- The kinds of result the rules give. -/
theorem packsTo_kinds {s : Bool} {y : ℝ} {w : Word} {d : FlagSet} (h : PacksTo s y w d) :
    (w = signedZero s ∧ d = flagU) ∨ (w = clampWord s ∧ d = flagO) ∨
      (1 ≤ (expField w).toNat ∧ signBit w = s ∧ d = noFlags) := by
  obtain ⟨-, hw, hd⟩ | ⟨-, hw, hd⟩ | ⟨-, -, hd, hsign, hne, -⟩ := h
  · exact .inr (.inl ⟨hw, hd⟩)
  · exact .inl ⟨hw, hd⟩
  · exact .inr (.inr ⟨by bv_omega, hsign, hd⟩)

theorem eq_clampWord_of_packsTo_flagO {s : Bool} {y : ℝ} {w : Word} (h : PacksTo s y w flagO) : w = clampWord s := by
  obtain ⟨-, hd⟩ | ⟨hw, -⟩ | ⟨-, -, hd⟩ := packsTo_kinds h
  · exact absurd hd (by decide)
  · exact hw
  · exact absurd hd (by decide)

/-- Settles O40: the kinds the rules give, of which only the clamp word comes with O; and 2^128 is the greatest representable
magnitude below 2^128 + 2^105. -/
theorem roundPackResultKinds : Obligations.RoundPackResultKinds := by
  refine ⟨fun s y hy _ => packsTo_kinds (packsTo_roundPack hy s), fun s y hy _ hdelta => ?_, fun s y hy hlo hhi => ?_⟩
  · have hpacks := packsTo_roundPack hy s
    rw [hdelta] at hpacks
    rw [eq_clampWord_of_packsTo_flagO hpacks]
    exact ⟨clampWord_ne_infinityPattern s false, clampWord_ne_infinityPattern s true⟩
  · exact (packsTo_iff_roundPack hy).1 (packsTo_infinityPattern s hlo hhi)

/-! ### AddCore (R112) -/

section
variable {x y : Decoded} (hx : 0 < x.mag.den) (hy : 0 < y.mag.den)
include hx hy

theorem signedSum_eq_zero_iff : signedSum x y = 0 ↔ signed x.sign x.mag.val + signed y.sign y.mag.val = 0 := by
  have hden : (0 : ℝ) < ((x.mag.den * y.mag.den : ℕ) : ℝ) := Nat.cast_pos.2 (Nat.mul_pos hx hy)
  rw [← signedSum_val hx hy, div_eq_zero_iff, or_iff_left hden.ne', Int.cast_eq_zero]

theorem signedSum_neg_iff : signedSum x y < 0 ↔ signed x.sign x.mag.val + signed y.sign y.mag.val < 0 := by
  have hden : (0 : ℝ) < ((x.mag.den * y.mag.den : ℕ) : ℝ) := Nat.cast_pos.2 (Nat.mul_pos hx hy)
  rw [← signedSum_val hx hy, div_lt_iff₀ hden, zero_mul, Int.cast_lt_zero]

/-- The numerator's absolute value over the common denominator is the magnitude of the exact sum. -/
theorem natAbs_signedSum_val :
    (Exact.rat { num := (signedSum x y).natAbs, den := x.mag.den * y.mag.den }).val =
      |signed x.sign x.mag.val + signed y.sign y.mag.val| := by
  rw [← signedSum_val hx hy, abs_div, Nat.abs_cast, ← Int.cast_abs, Int.abs_eq_natAbs, Int.cast_natCast]
  rfl

end

section
variable {r : ℝ} {bothNegativeZero : Prop}

/-- A nonzero exact sum packs with its own sign. -/
theorem sumPacksTo_of_ne_zero {w : Word} {d : FlagSet} (hr : r ≠ 0) (h : PacksTo (decide (r < 0)) |r| w d) :
    SumPacksTo r bothNegativeZero w d := by
  rcases lt_or_gt_of_ne hr with hneg | hpos
  · rw [decide_eq_true hneg, abs_of_neg hneg] at h
    exact .inl ⟨hneg, h⟩
  · rw [decide_eq_false hpos.not_gt, abs_of_pos hpos] at h
    exact .inr (.inl ⟨hpos, h⟩)

/-- An exact zero is the zero of negative sign exactly where both addends are. -/
theorem sumPacksTo_zeroWord {s : Bool} (hr : r = 0) (hs : bothNegativeZero ↔ s = true) :
    SumPacksTo r bothNegativeZero (zeroWord s) noFlags := by
  refine .inr (.inr ⟨hr, rfl, fun h => ?_, fun h => ?_⟩)
  · rw [hs.1 h]
    rfl
  · rw [Bool.eq_false_of_not_eq_true (mt hs.2 h)]
    rfl

end

/-- Settles O42: the sign and the zeros of the exact sum are its numerator's, so AddCore's three cases are the rule's. -/
theorem addCorePacksExactSum : Obligations.AddCorePacksExactSum := by
  intro x y hx hy
  obtain ⟨hne, hcore⟩ | ⟨heq, hxzero, hyzero, hsign, hcore⟩ | ⟨heq, hnot, hcore⟩ := addCore_cases config x y
  · have hproper : (Exact.rat { num := (signedSum x y).natAbs, den := x.mag.den * y.mag.den }).proper := Nat.mul_pos hx hy
    have hpacks := packsTo_roundPack hproper (decide (signedSum x y < 0))
    rw [natAbs_signedSum_val hx hy, ← hcore] at hpacks
    simp only [signedSum_neg_iff hx hy] at hpacks
    exact sumPacksTo_of_ne_zero (mt (signedSum_eq_zero_iff hx hy).2 hne) hpacks
  · rw [Mag.isZero_iff hx] at hxzero
    rw [Mag.isZero_iff hy] at hyzero
    rw [hcore]
    exact sumPacksTo_zeroWord ((signedSum_eq_zero_iff hx hy).1 heq) (by simp [hxzero, hyzero, ← hsign])
  · rw [Mag.isZero_iff hx, Mag.isZero_iff hy] at hnot
    rw [hcore]
    refine sumPacksTo_zeroWord ((signedSum_eq_zero_iff hx hy).1 heq) ⟨fun h => ?_, nofun⟩
    obtain ⟨hxzero, hyzero, hxsign, hysign⟩ := h
    exact absurd ⟨hxzero, hyzero, hxsign.trans hysign.symm⟩ hnot

end Sys2Proof.Machine
end

section
/-! SUPPORT. Proofs of the statements about ADD and SUB (42_add_sub.md): what they answer as a sum's exact value packed once,
and the corner cases of ADD, SUB, MUL and DIV in which an operand is a zero, both operands are one word, or they change places. -/

namespace Sys2Proof.Machine

/-! ### The signed value of a word (R12) -/

section
variable {p : Word}

theorem wordMag_pos (h : expField p ≠ 0) : 0 < wordMag p :=
  (wordMag_nonneg p).lt_of_ne' (mt wordMag_eq_zero_iff.1 h)

theorem wordValue_of_expField_zero (h : expField p = 0) : wordValue p = 0 := by
  rw [wordValue, wordMag_eq_zero_iff.2 h, signed, neg_zero, ite_self]

theorem signed_not (s : Bool) (y : ℝ) : signed (!s) y = -signed s y := by
  cases s <;> simp [signed]

theorem expField_ne_zero_of_isZeroClass_eq_false (h : isZeroClass p = false) : expField p ≠ 0 :=
  mt isZeroClass_iff.2 (Bool.eq_false_iff.1 h)

theorem isZero_decodeValue_iff : (decodeValue config p).mag.isZero = true ↔ expField p = 0 := by
  rw [Mag.isZero_iff (den_pos_decodeValue config p), decodeValue_mag_val, wordMag_eq_zero_iff]

end

/-! ### The rules leave no choice, and keep a word of a nonzero class -/

/-- A word of a nonzero class is what its own sign and magnitude pack to. -/
theorem packsTo_wordMag {p : Word} (h : expField p ≠ 0) : PacksTo (signBit p) (wordMag p) p noFlags := by
  obtain ⟨hlo, hhi⟩ := representable_bounds (representable_wordMag h)
  exact (packsTo_inRange_iff hlo hhi).2 ⟨rfl, rfl, h, le_rfl, fun _ _ hle => hle⟩

section
variable {r : ℝ} {bothNegativeZero : Prop} {w w' : Word} {d d' : FlagSet}

theorem sumPacksTo_neg_iff (hr : r < 0) : SumPacksTo r bothNegativeZero w d ↔ PacksTo true (-r) w d := by
  simp [SumPacksTo, hr, hr.not_gt, hr.ne]

theorem sumPacksTo_pos_iff (hr : 0 < r) : SumPacksTo r bothNegativeZero w d ↔ PacksTo false r w d := by
  simp [SumPacksTo, hr, hr.not_gt, hr.ne']

theorem sumPacksTo_zero_iff (hr : r = 0) : SumPacksTo r bothNegativeZero w d ↔
    d = noFlags ∧ (bothNegativeZero → w = 0x80000000) ∧ (¬bothNegativeZero → w = 0x00000000) := by
  simp [SumPacksTo, hr, noFlags]

/-- The rule for a sum determines the word and the delta (R112). -/
theorem sumPacksTo_unique (h : SumPacksTo r bothNegativeZero w d) (h' : SumPacksTo r bothNegativeZero w' d') :
    w = w' ∧ d = d' := by
  rcases lt_trichotomy r 0 with hneg | hzero | hpos
  · rw [sumPacksTo_neg_iff hneg] at h h'
    exact packsTo_unique h h'
  · obtain ⟨hd, hminus, hplus⟩ := (sumPacksTo_zero_iff hzero).1 h
    obtain ⟨hd', hminus', hplus'⟩ := (sumPacksTo_zero_iff hzero).1 h'
    refine ⟨?_, hd.trans hd'.symm⟩
    by_cases hb : bothNegativeZero
    · exact (hminus hb).trans (hminus' hb).symm
    · exact (hplus hb).trans (hplus' hb).symm
  · rw [sumPacksTo_pos_iff hpos] at h h'
    exact packsTo_unique h h'

/-- A sum worth a word of a nonzero class packs to that word. -/
theorem sumPacksTo_wordValue {p : Word} (h : expField p ≠ 0) : SumPacksTo (wordValue p) bothNegativeZero p noFlags := by
  have hpos := wordMag_pos h
  have hpacks := packsTo_wordMag h
  rw [wordValue]
  cases hs : signBit p with
  | false =>
    rw [hs] at hpacks
    exact (sumPacksTo_pos_iff hpos).2 hpacks
  | true =>
    rw [hs, ← neg_neg (wordMag p)] at hpacks
    exact (sumPacksTo_neg_iff (neg_lt_zero.2 hpos)).2 hpacks

/-- An operation whose answer packs a sum completes with any result and delta the rule gives for it. -/
theorem completes_of_sumPacksTo {i : Instr} {o : OpResult} {s : State} (hexec : exec i s = complete o s)
    (ho : SumPacksTo r bothNegativeZero o.result o.delta) (h : SumPacksTo r bothNegativeZero w d) : Completes i s w d := by
  obtain ⟨rfl, rfl⟩ := sumPacksTo_unique ho h
  exact completes_of_exec hexec

end

/-! ### ADD and SUB pack the exact result (R120, R121) -/

theorem decode_of_add_op {r : Request} (h : r.op = 0x0) : decode r = .add r.a r.b := by
  rw [decode, h]
  rfl

theorem decode_of_sub_op {r : Request} (h : r.op = 0x1) : decode r = .sub r.a r.b := by
  rw [decode, h]
  rfl

section
variable (a b : Word)

theorem sumPacksTo_opAdd : SumPacksTo (wordValue a + wordValue b)
    (wordMag a = 0 ∧ wordMag b = 0 ∧ signBit a = true ∧ signBit b = true)
    (opAdd config a b).result (opAdd config a b).delta := by
  have h := addCorePacksExactSum _ _ (den_pos_decodeValue config a) (den_pos_decodeValue config b)
  rwa [decodeValue_mag_val, decodeValue_mag_val] at h

/-- Negating the second addend turns the sum into the difference and its sign bit into the other one. -/
theorem sumPacksTo_opSub : SumPacksTo (wordValue a - wordValue b)
    (wordMag a = 0 ∧ wordMag b = 0 ∧ signBit a = true ∧ signBit b = false)
    (opSub config a b).result (opSub config a b).delta := by
  have h : SumPacksTo
      (signed (signBit a) (decodeValue config a).mag.val + signed (!signBit b) (decodeValue config b).mag.val)
      ((decodeValue config a).mag.val = 0 ∧ (decodeValue config b).mag.val = 0 ∧ signBit a = true ∧ (!signBit b) = true)
      (opSub config a b).result (opSub config a b).delta :=
    addCorePacksExactSum _ (decodeValue config b).negate (den_pos_decodeValue config a) (den_pos_decodeValue config b)
  rwa [decodeValue_mag_val, decodeValue_mag_val, signed_not, ← sub_eq_add_neg, Bool.not_eq_true'] at h

end

/-- Settles O43: ADD is AddCore of the decoded operands, whose signs and magnitudes are the words' own. -/
theorem addPacksExactSum : Obligations.AddPacksExactSum :=
  ⟨fun _ => decode_of_add_op, fun a b s => ⟨_, _, completes_of_exec (exec_add a b s), sumPacksTo_opAdd a b⟩⟩

/-- Settles O44: SUB is AddCore of a and b with the sign of b flipped, so of values whose sum is the difference. -/
theorem subPacksExactDifference : Obligations.SubPacksExactDifference :=
  ⟨fun _ => decode_of_sub_op, fun a b s => ⟨_, _, completes_of_exec (exec_sub a b s), sumPacksTo_opSub a b⟩⟩

/-! ### Adding a zero (R122) -/

section
variable {p z : Word} (s : State)

theorem completes_add_zero (hp : expField p ≠ 0) (hz : expField z = 0) : Completes (.add p z) s p noFlags := by
  refine completes_of_sumPacksTo (exec_add p z s) (sumPacksTo_opAdd p z) ?_
  rw [wordValue_of_expField_zero hz, add_zero]
  exact sumPacksTo_wordValue hp

/-- Two words worth zero, not both negative, add to +0. -/
theorem completes_add_zeros (hp : expField p = 0) (hz : expField z = 0) (hsign : signBit z = false) :
    Completes (.add p z) s (zeroWord false) noFlags := by
  refine completes_of_sumPacksTo (exec_add p z s) (sumPacksTo_opAdd p z) (sumPacksTo_zeroWord ?_ ?_)
  · rw [wordValue_of_expField_zero hp, wordValue_of_expField_zero hz, add_zero]
  · simp [hsign]

end

/-- Settles O53: with an addend worth zero the exact sum is the other operand's value, which packs to that operand; a negative
denormal and +0 are both worth zero. -/
theorem addingZeroKeepsWord : Obligations.AddingZeroKeepsWord := by
  refine ⟨fun p s hp => ?_, fun s => completes_add_zeros s rfl rfl rfl⟩
  have hne := expField_ne_zero_of_isZeroClass_eq_false hp
  exact ⟨completes_add_zero s hne rfl, completes_add_zero s hne rfl⟩

/-! ### Operands exchanged (R120, R135) -/

theorem signedSum_comm (x y : Decoded) : signedSum x y = signedSum y x := Int.add_comm ..

/-- AddCore's one branch that looks at the first addend's sign is that of two addends of one sign. -/
theorem addCore_comm (cfg : Config) (x y : Decoded) : addCore cfg x y = addCore cfg y x := by
  obtain ⟨hne, hcore⟩ | ⟨heq, hx, hy, hsign, hcore⟩ | ⟨heq, hnot, hcore⟩ := addCore_cases cfg x y <;>
    rw [hcore, addCore, signedSum_comm y x]
  · rw [if_pos hne, Nat.mul_comm]
  · simp [heq, hx, hy, hsign]
  · have hnot' : ¬(y.mag.isZero = true ∧ x.mag.isZero = true ∧ y.sign = x.sign) :=
      fun ⟨hy, hx, hsign⟩ => hnot ⟨hx, hy, hsign.symm⟩
    simp [heq, hnot', and_assoc]

theorem mag_mul_comm (x y : Mag) : x.mul y = y.mul x := by
  rw [Mag.mul, Mag.mul, Nat.mul_comm x.num, Nat.mul_comm x.den]

theorem opMul_comm (cfg : Config) (a b : Word) : opMul cfg a b = opMul cfg b a := by
  simp only [opMul]
  rw [Bool.xor_comm, Bool.or_comm, mag_mul_comm]

/-- Settles O54: AddCore does not depend on the order of its addends, nor does MUL's sign, test for zeros or product. -/
theorem addAndMulCommute : Obligations.AddAndMulCommute := by
  intro a b s
  have hadd : opAdd config a b = opAdd config b a := addCore_comm ..
  rw [exec_add, exec_add, exec_mul, exec_mul, hadd, opMul_comm]
  exact ⟨rfl, rfl⟩

/-! ### Both operands one word (R121, R145) -/

theorem num_pos_decodeValue {p : Word} (h : expField p ≠ 0) : 0 < (decodeValue config p).mag.num := by
  rw [← Mag.val_pos_iff (den_pos_decodeValue config p), decodeValue_mag_val]
  exact wordMag_pos h

/-- The exact quotient of two decoded words, as DIV hands it to RoundPack. -/
def exactQuotient (a b : Word) : Exact := .rat ((decodeValue config a).mag.div (decodeValue config b).mag)

theorem exactQuotient_proper (a : Word) {b : Word} (hb : expField b ≠ 0) : (exactQuotient a b).proper :=
  Nat.mul_pos (den_pos_decodeValue config a) (num_pos_decodeValue hb)

theorem exactQuotient_val (a b : Word) : (exactQuotient a b).val = wordMag a / wordMag b := by
  rw [exactQuotient, Exact.val, Mag.val_div, decodeValue_mag_val, decodeValue_mag_val]

/-- DIV of two nonzero operands packs the exact quotient (R145). -/
theorem opDiv_of_nonzero {a b : Word} (ha : expField a ≠ 0) (hb : expField b ≠ 0) :
    opDiv config a b = roundPack config (signBit a ^^ signBit b) (exactQuotient a b) := by
  rw [opDiv, if_neg (mt isZero_decodeValue_iff.1 hb), if_neg (mt isZero_decodeValue_iff.1 ha)]
  rfl

theorem packsTo_one : PacksTo false 1 0x3F800000 noFlags := by
  have hne : expField 0x3F800000 ≠ 0 := by decide
  have hexp : ((expField 0x3F800000).toNat : ℤ) = 127 := rfl
  have hfrac : (fracField 0x3F800000).toNat = 0 := rfl
  have hone : wordMag 0x3F800000 = 1 := by
    rw [wordMag, if_neg hne, hexp, hfrac]
    norm_num
  exact hone ▸ packsTo_wordMag hne

theorem completes_sub_self (p : Word) (s : State) : Completes (.sub p p) s (zeroWord false) noFlags :=
  completes_of_sumPacksTo (exec_sub p p s) (sumPacksTo_opSub p p) (sumPacksTo_zeroWord (sub_self _) (by simp))

theorem completes_div_self {p : Word} (hp : expField p ≠ 0) (s : State) : Completes (.div p p) s 0x3F800000 noFlags := by
  have hpacks : PacksTo false (exactQuotient p p).val 0x3F800000 noFlags := by
    rw [exactQuotient_val, div_self (wordMag_pos hp).ne']
    exact packsTo_one
  refine completes_of_exec ?_
  rw [exec_div, opDiv_of_nonzero hp hp, Bool.xor_self, (packsTo_iff_roundPack (exactQuotient_proper p hp)).1 hpacks]

/-- Settles O55: the exact difference is zero and its addends differ in sign; the exact quotient is 1, of positive sign. -/
theorem selfDifferenceAndQuotient : Obligations.SelfDifferenceAndQuotient := fun p s =>
  ⟨completes_sub_self p s, fun hp => completes_div_self (expField_ne_zero_of_isZeroClass_eq_false hp) s⟩

end Sys2Proof.Machine
end

section
/-! SUPPORT. Proofs of the statement about MUL (43_mul.md): a signed zero where an operand is worth zero, and the exact product
packed once otherwise. -/

namespace Sys2Proof.Machine

/-! ### MUL packs the exact product (R135) -/

theorem decode_of_mul_op {r : Request} (h : r.op = 0x2) : decode r = .mul r.a r.b := by
  rw [decode, h]
  rfl

section
variable (a b : Word)

theorem den_pos_mul_decodeValue : 0 < ((decodeValue config a).mag.mul (decodeValue config b).mag).den :=
  Nat.mul_pos (den_pos_decodeValue config a) (den_pos_decodeValue config b)

theorem mul_decodeValue_val : ((decodeValue config a).mag.mul (decodeValue config b).mag).val = wordMag a * wordMag b := by
  rw [Mag.val_mul, decodeValue_mag_val, decodeValue_mag_val]

end

section
variable {a b : Word}

/-- MUL's test for a zero operand is that an exponent field is zero. -/
theorem isZero_or_isZero_decodeValue_iff :
    ((decodeValue config a).mag.isZero || (decodeValue config b).mag.isZero) = true ↔ expField a = 0 ∨ expField b = 0 := by
  rw [Bool.or_eq_true, isZero_decodeValue_iff, isZero_decodeValue_iff]

theorem opMul_of_zero (h : expField a = 0 ∨ expField b = 0) :
    opMul config a b = { result := zeroWord (signBit a ^^ signBit b), delta := noFlags } := by
  rw [opMul, if_pos (isZero_or_isZero_decodeValue_iff.2 h)]
  rfl

theorem opMul_of_nonzero (ha : expField a ≠ 0) (hb : expField b ≠ 0) :
    opMul config a b = roundPack config (signBit a ^^ signBit b)
      (.rat ((decodeValue config a).mag.mul (decodeValue config b).mag)) := by
  rw [opMul, if_neg (mt isZero_or_isZero_decodeValue_iff.1 (not_or.2 ⟨ha, hb⟩))]
  rfl

theorem packsTo_opMul (ha : expField a ≠ 0) (hb : expField b ≠ 0) :
    PacksTo (signBit a ^^ signBit b) (wordMag a * wordMag b) (opMul config a b).result (opMul config a b).delta := by
  have hproper : (Exact.rat ((decodeValue config a).mag.mul (decodeValue config b).mag)).proper := den_pos_mul_decodeValue a b
  have hpacks := packsTo_roundPack hproper (signBit a ^^ signBit b)
  rwa [← opMul_of_nonzero ha hb, Exact.val, mul_decodeValue_val] at hpacks

end

/-- Settles O45, by the two branches of MUL: an operand is worth zero exactly where MUL's test finds it, and the product it packs
otherwise is that of the words' magnitudes. -/
theorem mulPacksExactProduct : Obligations.MulPacksExactProduct := by
  refine ⟨fun _ => decode_of_mul_op, fun a b s => ⟨(opMul config a b).result, (opMul config a b).delta,
    completes_of_exec (exec_mul a b s), fun hzero => ?_, fun hne => ?_⟩⟩
  · rw [wordMag_eq_zero_iff, wordMag_eq_zero_iff] at hzero
    rw [opMul_of_zero hzero]
    exact ⟨zeroWord_eq_signedZero _, rfl⟩
  · obtain ⟨ha, hb⟩ := hne
    exact packsTo_opMul (mt wordMag_eq_zero_iff.2 ha) (mt wordMag_eq_zero_iff.2 hb)

end Sys2Proof.Machine
end

section
/-! SUPPORT. Proofs of the statement about DIV (44_div.md): the substitution table's rows for zero operands, and the exact
quotient packed once otherwise. -/

namespace Sys2Proof.Machine

/-! ### DIV answers a row of the substitution table or packs the exact quotient (R145, R146) -/

theorem decode_of_div_op {r : Request} (h : r.op = 0x3) : decode r = .div r.a r.b := by
  rw [decode, h]
  rfl

section
variable {a b : Word}

theorem opDiv_of_nonzero_by_zero (ha : expField a ≠ 0) (hb : expField b = 0) :
    opDiv config a b = { result := maxMagWord config (signBit a ^^ signBit b), delta := flagO } := by
  rw [opDiv, if_pos (isZero_decodeValue_iff.2 hb), if_neg (mt isZero_decodeValue_iff.1 ha)]
  rfl

theorem opDiv_of_zero_by_zero (ha : expField a = 0) (hb : expField b = 0) :
    opDiv config a b = { result := maxMagWord config (signBit a ^^ signBit b), delta := flagI } := by
  rw [opDiv, if_pos (isZero_decodeValue_iff.2 hb), if_pos (isZero_decodeValue_iff.2 ha)]
  rfl

theorem opDiv_of_zero_by_nonzero (ha : expField a = 0) (hb : expField b ≠ 0) :
    opDiv config a b = { result := zeroWord (signBit a ^^ signBit b), delta := noFlags } := by
  rw [opDiv, if_neg (mt isZero_decodeValue_iff.1 hb), if_pos (isZero_decodeValue_iff.2 ha)]
  rfl

theorem packsTo_opDiv (ha : expField a ≠ 0) (hb : expField b ≠ 0) :
    PacksTo (signBit a ^^ signBit b) (wordMag a / wordMag b) (opDiv config a b).result (opDiv config a b).delta := by
  rw [opDiv_of_nonzero ha hb, ← exactQuotient_val]
  exact packsTo_roundPack (exactQuotient_proper a hb) _

end

/-- Settles O46, by the rows of the substitution table and the quotient: a word is worth zero exactly where its exponent field
is zero, which is where DIV's own tests find a zero operand. -/
theorem divPacksExactQuotient : Obligations.DivPacksExactQuotient := by
  refine ⟨fun _ => decode_of_div_op, fun a b s => ⟨(opDiv config a b).result, (opDiv config a b).delta,
    completes_of_exec (exec_div a b s), ?_⟩⟩
  rw [← maxMagWord_eq_clampWord, ← zeroWord_eq_signedZero]
  simp only [ne_eq, wordMag_eq_zero_iff]
  refine ⟨fun ⟨ha, hb⟩ => ?_, fun ⟨ha, hb⟩ => ?_, fun ⟨ha, hb⟩ => ?_, fun ⟨ha, hb⟩ => packsTo_opDiv ha hb⟩
  · rw [opDiv_of_nonzero_by_zero ha hb]
    exact ⟨rfl, rfl⟩
  · rw [opDiv_of_zero_by_zero ha hb]
    exact ⟨rfl, rfl⟩
  · rw [opDiv_of_zero_by_nonzero ha hb]
    exact ⟨rfl, rfl⟩

end Sys2Proof.Machine
end

section
/-! SUPPORT. Proofs of the statements about MADD and MSUB (45_mac.md): the exact product is AddCore's first addend, so what is
packed once is the exact sum; and the triples on which that differs from rounding the product first. -/

namespace Sys2Proof.Machine

/-! ### MADD and MSUB pack the exact result (R160, R161) -/

theorem decode_of_madd_op {r : Request} (h : r.op = 0x4) : decode r = .madd r.a r.b r.c := by
  rw [decode, h]
  rfl

theorem decode_of_msub_op {r : Request} (h : r.op = 0x5) : decode r = .msub r.a r.b r.c := by
  rw [decode, h]
  rfl

/-- Signs multiply by exclusive or. -/
theorem signed_xor_mul (s t : Bool) (x y : ℝ) : signed (s ^^ t) (x * y) = signed s x * signed t y := by
  cases s <;> cases t <;> simp [signed]

section
variable (a b c : Word)

/-- The unrounded product is worth the product of the words' signed values, negated on request. -/
theorem exactProduct_val (negated : Bool) :
    signed (exactProduct (decodeValue config a) (decodeValue config b) negated).sign
        (exactProduct (decodeValue config a) (decodeValue config b) negated).mag.val =
      signed negated (wordValue a * wordValue b) := by
  calc signed (signBit a ^^ signBit b ^^ negated) ((decodeValue config a).mag.mul (decodeValue config b).mag).val
      = signed (signBit a ^^ signBit b ^^ negated) (wordMag a * wordMag b * 1) := by rw [mul_decodeValue_val, mul_one]
    _ = wordValue a * wordValue b * signed negated 1 := by rw [signed_xor_mul, signed_xor_mul]; rfl
    _ = signed negated (wordValue a * wordValue b) := by cases negated <;> simp [signed]

/-- A fused operation packs the exact sum once; its zero rule looks at the sign of the product after negation. -/
theorem sumPacksTo_fused (negated : Bool) :
    SumPacksTo (signed negated (wordValue a * wordValue b) + wordValue c)
      (wordMag a * wordMag b = 0 ∧ wordMag c = 0 ∧ (signBit a ^^ signBit b ^^ negated) = true ∧ signBit c = true)
      (addCore config (exactProduct (decodeValue config a) (decodeValue config b) negated) (decodeValue config c)).result
      (addCore config (exactProduct (decodeValue config a) (decodeValue config b) negated) (decodeValue config c)).delta := by
  have hsum := addCorePacksExactSum (exactProduct (decodeValue config a) (decodeValue config b) negated)
    (decodeValue config c) (den_pos_mul_decodeValue a b) (den_pos_decodeValue config c)
  have hproduct : (exactProduct (decodeValue config a) (decodeValue config b) negated).mag.val = wordMag a * wordMag b :=
    mul_decodeValue_val a b
  rwa [exactProduct_val, hproduct, decodeValue_mag_val] at hsum

theorem sumPacksTo_opMadd : SumPacksTo (wordValue a * wordValue b + wordValue c)
    (wordMag a * wordMag b = 0 ∧ wordMag c = 0 ∧ (signBit a ^^ signBit b) = true ∧ signBit c = true)
    (opMadd config a b c).result (opMadd config a b c).delta := by
  have h := sumPacksTo_fused a b c false
  rwa [Bool.xor_false] at h

/-- Negating the product turns the sum into the difference and the product's sign bit into the other one. -/
theorem sumPacksTo_opMsub : SumPacksTo (wordValue c - wordValue a * wordValue b)
    (wordMag a * wordMag b = 0 ∧ wordMag c = 0 ∧ (signBit a ^^ signBit b) = false ∧ signBit c = true)
    (opMsub config a b c).result (opMsub config a b c).delta := by
  have h := sumPacksTo_fused a b c true
  have hvalue : signed true (wordValue a * wordValue b) + wordValue c = wordValue c - wordValue a * wordValue b :=
    neg_add_eq_sub _ _
  rwa [hvalue, Bool.xor_true, Bool.not_eq_true'] at h

end

/-- Settles O47: MADD is AddCore of the exact product and c, so nothing is rounded or flagged before the sum. -/
theorem maddPacksExactResult : Obligations.MaddPacksExactResult :=
  ⟨fun _ => decode_of_madd_op, fun a b c s => ⟨_, _, completes_of_exec (exec_madd a b c s), sumPacksTo_opMadd a b c⟩⟩

/-- Settles O48: MSUB is AddCore of the exact product with its sign flipped and c, so of values whose sum is the difference. -/
theorem msubPacksExactResult : Obligations.MsubPacksExactResult :=
  ⟨fun _ => decode_of_msub_op, fun a b c s => ⟨_, _, completes_of_exec (exec_msub a b c s), sumPacksTo_opMsub a b c⟩⟩

/-! ### MADD against MUL then ADD (R162) -/

/-- An operation that ends through `complete` completes with the result and delta computed for it. -/
theorem completes_of_result_eq {i : Instr} {o : OpResult} {s : State} {w : Word} {d : FlagSet}
    (hexec : exec i s = complete o s) (ho : o = { result := w, delta := d }) : Completes i s w d :=
  completes_of_exec (ho ▸ hexec)

section
variable (s : State)

/-- MUL truncates the last bit of (1 + 2^−23)², which MADD's sum keeps. -/
theorem fused_keeps_truncated_bit :
    Completes (.madd 0x3F800001 0x3F800001 0xBF800002) s 0x28800000 noFlags ∧
      Completes (.mul 0x3F800001 0x3F800001) s 0x3F800002 noFlags ∧
      Completes (.add 0x3F800002 0xBF800002) s 0x00000000 noFlags :=
  ⟨completes_of_result_eq (exec_madd ..) (by decide), completes_of_result_eq (exec_mul ..) (by decide),
    completes_of_result_eq (exec_add ..) (by decide)⟩

/-- MUL clamps MAXMAG · 2, from which MADD takes MAXMAG away. -/
theorem fused_passes_over_overflow :
    Completes (.madd 0x7FFFFFFF 0x40000000 0xFFFFFFFF) s 0x7FFFFFFF noFlags ∧
      Completes (.mul 0x7FFFFFFF 0x40000000) s 0x7FFFFFFF flagO ∧
      Completes (.add 0x7FFFFFFF 0xFFFFFFFF) s 0x00000000 noFlags :=
  ⟨completes_of_result_eq (exec_madd ..) (by decide), completes_of_result_eq (exec_mul ..) (by decide),
    completes_of_result_eq (exec_add ..) (by decide)⟩

/-- MUL flushes (2^−102)² with U, while MADD truncates its sum with 1. -/
theorem fused_passes_over_underflow :
    Completes (.madd 0x0C800000 0x0C800000 0x3F800000) s 0x3F800000 noFlags ∧
      Completes (.mul 0x0C800000 0x0C800000) s 0x00000000 flagU ∧
      Completes (.add 0x00000000 0x3F800000) s 0x3F800000 noFlags :=
  ⟨completes_of_result_eq (exec_madd ..) (by decide), completes_of_result_eq (exec_mul ..) (by decide),
    completes_of_result_eq (exec_add ..) (by decide)⟩

end

/-- Settles O56: no state enters what the three operations answer, so each triple's results are computed from its words. -/
theorem fusedDiffersFromTwoStep : Obligations.FusedDiffersFromTwoStep := by
  intro s
  obtain ⟨hmadd, hmul, hadd⟩ := fused_keeps_truncated_bit s
  obtain ⟨hmadd', hmul', hadd'⟩ := fused_passes_over_overflow s
  exact ⟨hmadd, hmul, hadd, hmadd', hmul', hadd', fused_passes_over_underflow s⟩

end Sys2Proof.Machine
end

section
/-! SUPPORT. Proofs of the statements about SQRT, RSQRT and RCP (46_sqrt_rsqrt_rcp.md): roots and reciprocal roots stay in range,
so they pack with no flag of their own, and RCP is DIV of 1.0. -/

namespace Sys2Proof.Machine

/-! ### Roots and reciprocal roots of magnitudes in range (R178) -/

section
variable {x : ℝ} (hlo : leastNormal ≤ x) (hhi : x ≤ maxMagnitude)

include hlo in
/-- 2^−63 is the root of MIN_NORMAL. -/
theorem two_zpow_le_sqrt : 2 ^ (-63 : ℤ) ≤ √x := by
  refine Real.le_sqrt_of_sq_le (le_trans (le_of_eq ?_) hlo)
  norm_num [leastNormal]

include hhi in
/-- 2^65 squared is above MAXMAG. -/
theorem sqrt_lt_two_pow : √x < 2 ^ 65 := by
  refine (Real.sqrt_lt' (by positivity)).2 (hhi.trans_lt ?_)
  norm_num [maxMagnitude]

include hlo in
theorem one_div_sqrt_le_two_pow : 1 / √x ≤ 2 ^ 63 := by
  calc 1 / √x ≤ 1 / 2 ^ (-63 : ℤ) := one_div_le_one_div_of_le (by positivity) (two_zpow_le_sqrt hlo)
    _ = 2 ^ 63 := by norm_num

include hlo hhi

theorem two_zpow_lt_one_div_sqrt : 2 ^ (-65 : ℤ) < 1 / √x := by
  have hpos : 0 < √x := Real.sqrt_pos.2 (leastNormal_pos.trans_le hlo)
  calc (2 : ℝ) ^ (-65 : ℤ) = 1 / 2 ^ 65 := by norm_num
    _ < 1 / √x := one_div_lt_one_div_of_lt hpos (sqrt_lt_two_pow hhi)

theorem sqrt_inRange : leastNormal ≤ √x ∧ √x ≤ maxMagnitude :=
  ⟨le_trans (by norm_num [leastNormal]) (two_zpow_le_sqrt hlo),
    (sqrt_lt_two_pow hhi).le.trans (by norm_num [maxMagnitude])⟩

theorem one_div_sqrt_inRange : leastNormal ≤ 1 / √x ∧ 1 / √x ≤ maxMagnitude :=
  ⟨le_trans (by norm_num [leastNormal]) (two_zpow_lt_one_div_sqrt hlo hhi).le,
    (one_div_sqrt_le_two_pow hlo).trans (by norm_num [maxMagnitude])⟩

end

theorem root_inv_val (x : Mag) : (Exact.root x.inv).val = 1 / √x.val := by
  rw [Exact.val, Mag.val_inv, Real.sqrt_inv, one_div]

theorem root_inv_proper {x : Mag} (hd : 0 < x.den) (hpos : 0 < x.val) : (Exact.root x.inv).proper :=
  (Mag.val_pos_iff hd).1 hpos

theorem delta_roundPack_inRange {y : Exact} (hy : y.proper) (s : Bool) (h : leastNormal ≤ y.val ∧ y.val ≤ maxMagnitude) :
    (roundPack config s y).delta = noFlags := by
  rw [roundPack_eq_truncatedWord hy h.1 h.2]

/-- Settles O52: the bounds are those of the roots of MIN_NORMAL and of 2^130, which lie well within the range. -/
theorem rootsStayInRange : Obligations.RootsStayInRange := by
  intro x s hd hlo hhi
  have hproper := root_inv_proper hd (leastNormal_pos.trans_le hlo)
  refine ⟨two_zpow_le_sqrt hlo, sqrt_lt_two_pow hhi, two_zpow_lt_one_div_sqrt hlo hhi, one_div_sqrt_le_two_pow hlo,
    delta_roundPack_inRange (y := .root x) hd s (sqrt_inRange hlo hhi), delta_roundPack_inRange hproper s ?_⟩
  rw [root_inv_val]
  exact one_div_sqrt_inRange hlo hhi

/-! ### SQRT and RSQRT pack the exact root with the sign's own delta (R175, R176) -/

theorem decode_of_sqrt_op {r : Request} (h : r.op = 0x6) : decode r = .sqrt r.a := by
  rw [decode, h]
  rfl

theorem decode_of_rsqrt_op {r : Request} (h : r.op = 0x7) : decode r = .rsqrt r.a := by
  rw [decode, h]
  rfl

/-- An exact result in range packs with no flag, whatever delta the operation itself returns. -/
theorem packsTo_roundPack_inRange {y : Exact} (hy : y.proper) (s : Bool) (h : leastNormal ≤ y.val ∧ y.val ≤ maxMagnitude) :
    PacksTo s y.val (roundPack config s y).result noFlags :=
  delta_roundPack_inRange hy s h ▸ packsTo_roundPack hy s

section
variable {a : Word}

theorem opSqrt_of_zero (ha : expField a = 0) :
    opSqrt config a = { result := zeroWord (signBit a), delta := noFlags } :=
  if_pos (isZero_decodeValue_iff.2 ha)

theorem opSqrt_of_nonzero (ha : expField a ≠ 0) :
    opSqrt config a = { result := (roundPack config false (.root (decodeValue config a).mag)).result,
                        delta := if signBit a then flagI else noFlags } :=
  if_neg (mt isZero_decodeValue_iff.1 ha)

theorem opRsqrt_of_zero (ha : expField a = 0) :
    opRsqrt config a = { result := maxMagWord config (signBit a), delta := flagO } :=
  if_pos (isZero_decodeValue_iff.2 ha)

theorem opRsqrt_of_nonzero (ha : expField a ≠ 0) :
    opRsqrt config a = { result := (roundPack config false (.root (decodeValue config a).mag.inv)).result,
                         delta := if signBit a then flagI else noFlags } :=
  if_neg (mt isZero_decodeValue_iff.1 ha)

theorem packsTo_root_decodeValue (ha : expField a ≠ 0) :
    PacksTo false √(wordMag a) (roundPack config false (.root (decodeValue config a).mag)).result noFlags := by
  obtain ⟨hlo, hhi⟩ := representable_bounds (representable_wordMag ha)
  have hval : (Exact.root (decodeValue config a).mag).val = √(wordMag a) := by rw [Exact.val, decodeValue_mag_val]
  have hproper : (Exact.root (decodeValue config a).mag).proper := den_pos_decodeValue config a
  rw [← hval]
  exact packsTo_roundPack_inRange hproper false (hval ▸ sqrt_inRange hlo hhi)

theorem packsTo_root_inv_decodeValue (ha : expField a ≠ 0) :
    PacksTo false (1 / √(wordMag a)) (roundPack config false (.root (decodeValue config a).mag.inv)).result noFlags := by
  obtain ⟨hlo, hhi⟩ := representable_bounds (representable_wordMag ha)
  have hval : (Exact.root (decodeValue config a).mag.inv).val = 1 / √(wordMag a) := by
    rw [root_inv_val, decodeValue_mag_val]
  have hproper : (Exact.root (decodeValue config a).mag.inv).proper := num_pos_decodeValue ha
  rw [← hval]
  exact packsTo_roundPack_inRange hproper false (hval ▸ one_div_sqrt_inRange hlo hhi)

end

/-- Settles O49, by the two branches of SQRT: the root of a nonzero word's magnitude is in range, so the only flag is the
sign's. -/
theorem sqrtPacksExactRoot : Obligations.SqrtPacksExactRoot := by
  refine ⟨fun _ => decode_of_sqrt_op, fun a s => ⟨(opSqrt config a).result, (opSqrt config a).delta,
    completes_of_exec (exec_sqrt a s), fun hzero => ?_, fun hne => ?_⟩⟩
  · rw [opSqrt_of_zero (wordMag_eq_zero_iff.1 hzero)]
    exact ⟨zeroWord_eq_signedZero _, rfl⟩
  · have ha := mt wordMag_eq_zero_iff.2 hne
    rw [opSqrt_of_nonzero ha]
    exact ⟨packsTo_root_decodeValue ha, rfl⟩

/-- Settles O50, by the two branches of RSQRT: the reciprocal root of a nonzero word's magnitude is in range, so the only flag is
the sign's. -/
theorem rsqrtPacksExactReciprocalRoot : Obligations.RsqrtPacksExactReciprocalRoot := by
  refine ⟨fun _ => decode_of_rsqrt_op, fun a s => ⟨(opRsqrt config a).result, (opRsqrt config a).delta,
    completes_of_exec (exec_rsqrt a s), fun hzero => ?_, fun hne => ?_⟩⟩
  · rw [opRsqrt_of_zero (wordMag_eq_zero_iff.1 hzero)]
    exact ⟨maxMagWord_eq_clampWord _, rfl⟩
  · have ha := mt wordMag_eq_zero_iff.2 hne
    rw [opRsqrt_of_nonzero ha]
    exact ⟨packsTo_root_inv_decodeValue ha, rfl⟩

/-! ### RCP is DIV of 1.0 (R177) -/

theorem decode_of_rcp_op {r : Request} (h : r.op = 0x8) : decode r = .rcp r.a := by
  rw [decode, h]
  rfl

/-- The word of 1.0 is worth 1: a representable magnitude packs to a word worth itself. -/
theorem wordMag_one : wordMag 0x3F800000 = 1 := by
  have hone : Representable 1 := ⟨127, 0, by norm_num⟩
  exact (wordMag_of_packsTo_representable hone packsTo_one).1

theorem signBit_one_xor (s : Bool) : (signBit 0x3F800000 ^^ s) = s := Bool.false_xor s

/-- RoundPack sees the exact value alone, not the fraction that holds it. -/
theorem roundPack_eq_of_val_eq {y z : Exact} (hy : y.proper) (hz : z.proper) (h : y.val = z.val) (s : Bool) :
    roundPack config s y = roundPack config s z :=
  (packsTo_iff_roundPack hy).1 (h ▸ packsTo_roundPack hz s)

section
variable {a : Word}

theorem opRcp_of_zero (ha : expField a = 0) :
    opRcp config a = { result := maxMagWord config (signBit a), delta := flagO } :=
  if_pos (isZero_decodeValue_iff.2 ha)

theorem opRcp_of_nonzero (ha : expField a ≠ 0) :
    opRcp config a = roundPack config (signBit a) (.rat (decodeValue config a).mag.inv) :=
  if_neg (mt isZero_decodeValue_iff.1 ha)

end

/-- For a zero both give the clamp word of a's sign with O; otherwise the reciprocal and the quotient are one real number. -/
theorem opRcp_eq_opDiv_one (a : Word) : opRcp config a = opDiv config 0x3F800000 a := by
  have hne : expField 0x3F800000 ≠ 0 := by decide
  by_cases ha : expField a = 0
  · rw [opRcp_of_zero ha, opDiv_of_nonzero_by_zero hne ha, signBit_one_xor]
  · have hval : (Exact.rat (decodeValue config a).mag.inv).val = (exactQuotient 0x3F800000 a).val := by
      rw [exactQuotient_val, wordMag_one, Exact.val, Mag.val_inv, decodeValue_mag_val, one_div]
    have hproper : (Exact.rat (decodeValue config a).mag.inv).proper := num_pos_decodeValue ha
    rw [opRcp_of_nonzero ha, opDiv_of_nonzero hne ha, signBit_one_xor]
    exact roundPack_eq_of_val_eq hproper (exactQuotient_proper _ ha) hval _

theorem packsTo_opRcp {a : Word} (ha : expField a ≠ 0) :
    PacksTo (signBit a) (1 / wordMag a) (opRcp config a).result (opRcp config a).delta := by
  have hquotient := packsTo_opDiv (a := 0x3F800000) (by decide) ha
  rwa [← opRcp_eq_opDiv_one, wordMag_one, signBit_one_xor] at hquotient

/-- Settles O51: RCP is DIV of 1.0 for every word, so what it packs is DIV's exact quotient of 1 and the word's magnitude. -/
theorem rcpPacksExactReciprocal : Obligations.RcpPacksExactReciprocal := by
  refine ⟨fun _ => decode_of_rcp_op, fun a s => ⟨⟨(opRcp config a).result, (opRcp config a).delta,
    completes_of_exec (exec_rcp a s), fun hzero => ?_, fun hne => packsTo_opRcp (mt wordMag_eq_zero_iff.2 hne)⟩, ?_⟩⟩
  · rw [opRcp_of_zero (wordMag_eq_zero_iff.1 hzero)]
    exact ⟨maxMagWord_eq_clampWord _, rfl⟩
  · rw [exec_rcp, exec_div, opRcp_eq_opDiv_one]

end Sys2Proof.Machine
end

section
/-! SUPPORT. Proofs of the statements about the flag register: how FLAGS accumulates and is read and cleared (47_flags.md), which
flag a transaction raises and why (60_exceptions.md), how resets and transactions follow each other
(70_reset_and_hazards.md), and the request words of 95_test_vectors.md. -/

namespace Sys2Proof.Machine

/-! ### FLAGS accumulates deltas (R196, R198, R200) -/

/-- Settles O14: apart from CLRFLAGS and the reserved codes an instruction completes, which ORs its delta into FLAGS. -/
theorem deltasAccumulate : Obligations.DeltasAccumulate := by
  intro i s hclr hres
  obtain ⟨rfl, -⟩ | ⟨op, rfl, -⟩ | ⟨-, -, o, he⟩ := exec_cases i s
  · exact absurd rfl hclr
  · exact absurd rfl (hres op)
  · exact ⟨o.result, o.delta, completes_of_exec he⟩

/-- The last clear of a sequence hides what FLAGS held before it (R198). -/
theorem foldl_flagsAfter_of_last_clear (f : FlagSet) (before : List Request) {since : List Request} {clear : Request}
    (hclear : decode clear = .clrflags) (hsince : ∀ r ∈ since, decode r ≠ .clrflags) :
    (before ++ clear :: since).foldl flagsAfter f = since.foldl (fun acc r => acc ||| raised r) noFlags := by
  rw [List.foldl_append, List.foldl_cons, flagsAfter_of_clear _ hclear, foldl_flagsAfter_of_no_clear _ hsince]

/-- Settles O24: a run leaves FLAGS at the fold, which without a clear only gains flags and at a clear starts from none. -/
theorem sequencesAccumulateFlags : Obligations.SequencesAccumulateFlags := by
  intro f x rs rest
  obtain ⟨t, hrun, hpending, hflags⟩ := run_requests f x rs rest
  refine ⟨t, hrun, hpending, hflags, fun hrs => ?_, fun before since clear hsplit hclear hsince => ?_⟩
  · rw [hflags, foldl_flagsAfter_of_no_clear f hrs]
  · rw [hflags, hsplit]
    exact foldl_flagsAfter_of_last_clear f before hclear hsince

/-! ### RDFLAGS and CLRFLAGS (R197, R198) -/

theorem decode_of_rdflags_op {r : Request} (h : r.op = 0xA) : decode r = .rdflags := by
  rw [decode, h]
  rfl

theorem decode_of_clrflags_op {r : Request} (h : r.op = 0xB) : decode r = .clrflags := by
  rw [decode, h]
  rfl

theorem flagsWord_eq_append (f : FlagSet) : flagsWord f = 0#29 ++ f := by
  revert f
  decide

/-- Settles O15: RDFLAGS completes with FLAGS as a word and an empty delta, which FLAGS does not gain from. -/
theorem rdflagsReadsFlags : Obligations.RdflagsReadsFlags := by
  refine ⟨fun _ => decode_of_rdflags_op, fun s => ?_⟩
  have hgain : s.flags ||| noFlags = s.flags := BitVec.or_zero
  rw [exec_rdflags, complete_eq_next, hgain, flagsWord_eq_append]
  rfl

/-- Settles O16: CLRFLAGS answers zero and sets FLAGS to none. -/
theorem clrflagsClears : Obligations.ClrflagsClears :=
  ⟨fun _ => decode_of_clrflags_op, exec_clrflags⟩

/-! ### At most one flag (R214) -/

theorem legalDelta_iff {d : FlagSet} : legalDelta d = true ↔ d = noFlags ∨ d = flagO ∨ d = flagU ∨ d = flagI := by
  simp only [legalDelta, Bool.or_eq_true, beq_iff_eq, or_assoc]

/-- A response that completes an instruction shows the delta of what it completes with. -/
theorem delta_of_complete {i : Instr} {o : OpResult} {s : State} {x : Response} (h : exec i s = complete o s)
    (hx : responseOf i s = some x) : x.delta = o.delta := by
  rw [responseOf_of_complete h] at hx
  cases hx
  rfl

theorem legalDelta_of_responseOf {i : Instr} {s : State} {x : Response} (hx : responseOf i s = some x) :
    legalDelta x.delta = true := by
  obtain rfl | rfl | ⟨op, rfl⟩ | ⟨o, hd, he⟩ := exec_cases_every_state i
  · rw [delta_of_complete (exec_rdflags s) hx, legalDelta_noFlags]
  · cases hx
    exact legalDelta_noFlags
  · cases hx
    exact legalDelta_noFlags
  · rw [delta_of_complete (he s) hx, hd]

/-- Settles O19: a response shows a legal delta, which is none or one of the three flags. -/
theorem atMostOneFlagRaised : Obligations.AtMostOneFlagRaised := fun _ _ _ hx =>
  legalDelta_iff.1 (legalDelta_of_responseOf hx)

/-! ### The flags that an exact magnitude raises (R105, R106, R112) -/

/-- The delta of an exact result of magnitude y: O above MAXMAG, U for a nonzero one below MIN_NORMAL, never I. -/
def DeltaOfMagnitude (y : ℝ) (d : FlagSet) : Prop :=
  (d.getLsbD 0 = true ↔ maxMagnitude < y) ∧ (d.getLsbD 1 = true ↔ 0 < y ∧ y < leastNormal) ∧ d.getLsbD 2 = false

theorem deltaOfMagnitude_zero : DeltaOfMagnitude 0 noFlags := by
  have hhigh : ¬maxMagnitude < 0 := (leastNormal_pos.trans leastNormal_lt_maxMagnitude).not_gt
  simp [DeltaOfMagnitude, noFlags, hhigh]

section
variable {s : Bool} {y r : ℝ} {bothNegativeZero : Prop} {w : Word} {d : FlagSet}

theorem deltaOfMagnitude_of_packsTo (hy : 0 < y) (h : PacksTo s y w d) : DeltaOfMagnitude y d := by
  obtain ⟨habove, -, rfl⟩ | ⟨hbelow, -, rfl⟩ | ⟨hlo, hhi, rfl, -⟩ := h
  · have hlow : ¬y < leastNormal := (leastNormal_lt_maxMagnitude.trans habove).not_gt
    simp [DeltaOfMagnitude, habove, hlow]
  · have hhigh : ¬maxMagnitude < y := (hbelow.trans leastNormal_lt_maxMagnitude).not_gt
    simp [DeltaOfMagnitude, hy, hbelow, hhigh]
  · simp [DeltaOfMagnitude, hlo.not_gt, hhi.not_gt]

theorem deltaOfMagnitude_of_sumPacksTo (h : SumPacksTo r bothNegativeZero w d) : DeltaOfMagnitude |r| d := by
  obtain ⟨hneg, h⟩ | ⟨hpos, h⟩ | ⟨rfl, rfl, -⟩ := h
  · rw [abs_of_neg hneg]
    exact deltaOfMagnitude_of_packsTo (neg_pos.2 hneg) h
  · rw [abs_of_pos hpos]
    exact deltaOfMagnitude_of_packsTo hpos h
  · rw [abs_zero]
    exact deltaOfMagnitude_zero

end

/-! ### The causes of each flag (R211) -/

/-- The three bits of d are set exactly by the causes R211 lists for the instruction. -/
def RaisedByCauses (i : Instr) (d : FlagSet) : Prop :=
  (d.getLsbD 0 = true ↔ (∃ y, exactMagnitude i = some y ∧ maxMagnitude < y) ∨ DividesByZero i) ∧
  (d.getLsbD 1 = true ↔ ∃ y, exactMagnitude i = some y ∧ 0 < y ∧ y < leastNormal) ∧
  (d.getLsbD 2 = true ↔ IsInvalid i)

section
variable {i : Instr} {y : ℝ} {d : FlagSet}

/-- Where an exact magnitude is compared with the thresholds and no other cause applies, it alone decides. -/
theorem raisedByCauses_of_magnitude (hy : exactMagnitude i = some y) (hdiv : ¬DividesByZero i) (hinv : ¬IsInvalid i)
    (hd : DeltaOfMagnitude y d) : RaisedByCauses i d := by
  obtain ⟨hover, hunder, hnot⟩ := hd
  exact ⟨hover.trans (by simp [hy, hdiv]), hunder.trans (by simp [hy]), iff_of_false (Bool.eq_false_iff.1 hnot) hinv⟩

/-- Where there is no exact magnitude to compare, a zero divisor and an invalid operation are the only causes. -/
theorem raisedByCauses_of_no_magnitude (hy : exactMagnitude i = none) (hover : d.getLsbD 0 = true ↔ DividesByZero i)
    (hunder : d.getLsbD 1 = false) (hinv : d.getLsbD 2 = true ↔ IsInvalid i) : RaisedByCauses i d :=
  ⟨hover.trans (by simp [hy]), iff_of_false (Bool.eq_false_iff.1 hunder) (by simp [hy]), hinv⟩

theorem raisedByCauses_noFlags (hy : exactMagnitude i = none) (hdiv : ¬DividesByZero i) (hinv : ¬IsInvalid i) :
    RaisedByCauses i noFlags :=
  raisedByCauses_of_no_magnitude hy (iff_of_false nofun hdiv) rfl (iff_of_false nofun hinv)

theorem raisedByCauses_flagO (hy : exactMagnitude i = none) (hdiv : DividesByZero i) (hinv : ¬IsInvalid i) :
    RaisedByCauses i flagO :=
  raisedByCauses_of_no_magnitude hy (iff_of_true rfl hdiv) rfl (iff_of_false nofun hinv)

theorem raisedByCauses_flagI (hy : exactMagnitude i = none) (hdiv : ¬DividesByZero i) (hinv : IsInvalid i) :
    RaisedByCauses i flagI :=
  raisedByCauses_of_no_magnitude hy (iff_of_false nofun hdiv) rfl (iff_of_true rfl hinv)

end

section
variable (a b c : Word)

theorem dividesByZero_div_iff : DividesByZero (.div a b) ↔ wordMag a ≠ 0 ∧ wordMag b = 0 := by simp [DividesByZero]

theorem dividesByZero_rcp_iff : DividesByZero (.rcp a) ↔ wordMag a = 0 := by simp [DividesByZero]

theorem dividesByZero_rsqrt_iff : DividesByZero (.rsqrt a) ↔ wordMag a = 0 := by simp [DividesByZero]

theorem isInvalid_div_iff : IsInvalid (.div a b) ↔ wordMag a = 0 ∧ wordMag b = 0 := by simp [IsInvalid]

theorem isInvalid_sqrt_iff : IsInvalid (.sqrt a) ↔ wordMag a ≠ 0 ∧ signBit a = true := by simp [IsInvalid]

theorem isInvalid_rsqrt_iff : IsInvalid (.rsqrt a) ↔ wordMag a ≠ 0 ∧ signBit a = true := by simp [IsInvalid]

/-- Only DIV, RCP and RSQRT divide by an operand. -/
theorem not_dividesByZero {i : Instr} (hdiv : ∀ a b, i ≠ .div a b) (hrcp : ∀ a, i ≠ .rcp a) (hrsqrt : ∀ a, i ≠ .rsqrt a) :
    ¬DividesByZero i := by
  simp [DividesByZero, hdiv, hrcp, hrsqrt]

/-- Only DIV, SQRT and RSQRT can be invalid. -/
theorem not_isInvalid {i : Instr} (hdiv : ∀ a b, i ≠ .div a b) (hsqrt : ∀ a, i ≠ .sqrt a) (hrsqrt : ∀ a, i ≠ .rsqrt a) :
    ¬IsInvalid i := by
  simp [IsInvalid, hdiv, hsqrt, hrsqrt]

/-- A sum has no cause of a flag but the magnitude of its exact value. -/
theorem raisedByCauses_of_sumPacksTo {i : Instr} {r : ℝ} {bothNegativeZero : Prop} {w : Word} {d : FlagSet}
    (hdiv : ∀ a b, i ≠ .div a b) (hsqrt : ∀ a, i ≠ .sqrt a) (hrsqrt : ∀ a, i ≠ .rsqrt a) (hrcp : ∀ a, i ≠ .rcp a)
    (hy : exactMagnitude i = some |r|) (h : SumPacksTo r bothNegativeZero w d) : RaisedByCauses i d :=
  raisedByCauses_of_magnitude hy (not_dividesByZero hdiv hrcp hrsqrt) (not_isInvalid hdiv hsqrt hrsqrt)
    (deltaOfMagnitude_of_sumPacksTo h)

theorem raisedByCauses_opAdd : RaisedByCauses (.add a b) (opAdd config a b).delta :=
  raisedByCauses_of_sumPacksTo nofun nofun nofun nofun rfl (sumPacksTo_opAdd a b)

theorem raisedByCauses_opSub : RaisedByCauses (.sub a b) (opSub config a b).delta :=
  raisedByCauses_of_sumPacksTo nofun nofun nofun nofun rfl (sumPacksTo_opSub a b)

theorem raisedByCauses_opMadd : RaisedByCauses (.madd a b c) (opMadd config a b c).delta :=
  raisedByCauses_of_sumPacksTo nofun nofun nofun nofun rfl (sumPacksTo_opMadd a b c)

theorem raisedByCauses_opMsub : RaisedByCauses (.msub a b c) (opMsub config a b c).delta :=
  raisedByCauses_of_sumPacksTo nofun nofun nofun nofun rfl (sumPacksTo_opMsub a b c)

theorem deltaOfMagnitude_opMul : DeltaOfMagnitude (wordMag a * wordMag b) (opMul config a b).delta := by
  by_cases hzero : expField a = 0 ∨ expField b = 0
  · have hproduct : wordMag a * wordMag b = 0 := by rwa [mul_eq_zero, wordMag_eq_zero_iff, wordMag_eq_zero_iff]
    rw [opMul_of_zero hzero, hproduct]
    exact deltaOfMagnitude_zero
  · obtain ⟨ha, hb⟩ := not_or.1 hzero
    exact deltaOfMagnitude_of_packsTo (mul_pos (wordMag_pos ha) (wordMag_pos hb)) (packsTo_opMul ha hb)

theorem raisedByCauses_opMul : RaisedByCauses (.mul a b) (opMul config a b).delta :=
  raisedByCauses_of_magnitude rfl (not_dividesByZero nofun nofun nofun) (not_isInvalid nofun nofun nofun)
    (deltaOfMagnitude_opMul a b)

theorem deltaOfMagnitude_opDiv {b : Word} (hb : expField b ≠ 0) :
    DeltaOfMagnitude (wordMag a / wordMag b) (opDiv config a b).delta := by
  by_cases ha : expField a = 0
  · rw [opDiv_of_zero_by_nonzero ha hb, wordMag_eq_zero_iff.2 ha, zero_div]
    exact deltaOfMagnitude_zero
  · exact deltaOfMagnitude_of_packsTo (div_pos (wordMag_pos ha) (wordMag_pos hb)) (packsTo_opDiv ha hb)

/-- A zero divisor raises O or I by the dividend, and a nonzero one leaves the quotient to decide (R145, R146). -/
theorem raisedByCauses_opDiv : RaisedByCauses (.div a b) (opDiv config a b).delta := by
  by_cases hb : expField b = 0
  · have hb' := wordMag_eq_zero_iff.2 hb
    have hnone : exactMagnitude (.div a b) = none := if_pos hb'
    by_cases ha : expField a = 0
    · have ha' := wordMag_eq_zero_iff.2 ha
      rw [opDiv_of_zero_by_zero ha hb]
      exact raisedByCauses_flagI hnone (by simp [dividesByZero_div_iff, ha']) ((isInvalid_div_iff a b).2 ⟨ha', hb'⟩)
    · have ha' := mt wordMag_eq_zero_iff.1 ha
      rw [opDiv_of_nonzero_by_zero ha hb]
      exact raisedByCauses_flagO hnone ((dividesByZero_div_iff a b).2 ⟨ha', hb'⟩) (by simp [isInvalid_div_iff, ha'])
  · have hb' := mt wordMag_eq_zero_iff.1 hb
    exact raisedByCauses_of_magnitude (if_neg hb') (by simp [dividesByZero_div_iff, hb'])
      (by simp [isInvalid_div_iff, hb']) (deltaOfMagnitude_opDiv a hb)

/-- The reciprocal of a zero raises O, and a nonzero operand leaves the reciprocal to decide (R177). -/
theorem raisedByCauses_opRcp : RaisedByCauses (.rcp a) (opRcp config a).delta := by
  have hvalid : ¬IsInvalid (.rcp a) := not_isInvalid nofun nofun nofun
  by_cases ha : expField a = 0
  · have ha' := wordMag_eq_zero_iff.2 ha
    rw [opRcp_of_zero ha]
    exact raisedByCauses_flagO (if_pos ha') ((dividesByZero_rcp_iff a).2 ha') hvalid
  · have ha' := mt wordMag_eq_zero_iff.1 ha
    exact raisedByCauses_of_magnitude (if_neg ha') (mt (dividesByZero_rcp_iff a).1 ha') hvalid
      (deltaOfMagnitude_of_packsTo (one_div_pos.2 (wordMag_pos ha)) (packsTo_opRcp ha))

/-- A root stays in range, so of a nonzero operand only its sign can raise a flag (R175, R178). -/
theorem raisedByCauses_rootDelta {i : Instr} (negative : Bool) (hy : exactMagnitude i = none) (hdiv : ¬DividesByZero i)
    (hinv : IsInvalid i ↔ negative = true) : RaisedByCauses i (if negative then flagI else noFlags) := by
  cases negative with
  | true => exact raisedByCauses_flagI hy hdiv (hinv.2 rfl)
  | false => exact raisedByCauses_noFlags hy hdiv (mt hinv.1 nofun)

theorem raisedByCauses_opSqrt : RaisedByCauses (.sqrt a) (opSqrt config a).delta := by
  have hdiv : ¬DividesByZero (.sqrt a) := not_dividesByZero nofun nofun nofun
  by_cases ha : expField a = 0
  · have ha' := wordMag_eq_zero_iff.2 ha
    rw [opSqrt_of_zero ha]
    exact raisedByCauses_noFlags rfl hdiv (by simp [isInvalid_sqrt_iff, ha'])
  · have ha' := mt wordMag_eq_zero_iff.1 ha
    rw [opSqrt_of_nonzero ha]
    exact raisedByCauses_rootDelta (signBit a) rfl hdiv (by simp [isInvalid_sqrt_iff, ha'])

theorem raisedByCauses_opRsqrt : RaisedByCauses (.rsqrt a) (opRsqrt config a).delta := by
  by_cases ha : expField a = 0
  · have ha' := wordMag_eq_zero_iff.2 ha
    rw [opRsqrt_of_zero ha]
    exact raisedByCauses_flagO rfl ((dividesByZero_rsqrt_iff a).2 ha') (by simp [isInvalid_rsqrt_iff, ha'])
  · have ha' := mt wordMag_eq_zero_iff.1 ha
    rw [opRsqrt_of_nonzero ha]
    exact raisedByCauses_rootDelta (signBit a) rfl (mt (dividesByZero_rsqrt_iff a).1 ha') (by simp [isInvalid_rsqrt_iff, ha'])

end

/-- Settles O20, instruction by instruction: the delta of each operation has its causes, CLASS and the flag operations have no
cause and raise nothing, and the response shows the delta. -/
theorem flagsHaveExactlyTheirCauses : Obligations.FlagsHaveExactlyTheirCauses := by
  intro i s x hx
  change RaisedByCauses i x.delta
  cases i with
  | add a b => exact delta_of_complete (exec_add a b s) hx ▸ raisedByCauses_opAdd a b
  | sub a b => exact delta_of_complete (exec_sub a b s) hx ▸ raisedByCauses_opSub a b
  | mul a b => exact delta_of_complete (exec_mul a b s) hx ▸ raisedByCauses_opMul a b
  | div a b => exact delta_of_complete (exec_div a b s) hx ▸ raisedByCauses_opDiv a b
  | madd a b c => exact delta_of_complete (exec_madd a b c s) hx ▸ raisedByCauses_opMadd a b c
  | msub a b c => exact delta_of_complete (exec_msub a b c s) hx ▸ raisedByCauses_opMsub a b c
  | sqrt a => exact delta_of_complete (exec_sqrt a s) hx ▸ raisedByCauses_opSqrt a
  | rsqrt a => exact delta_of_complete (exec_rsqrt a s) hx ▸ raisedByCauses_opRsqrt a
  | rcp a => exact delta_of_complete (exec_rcp a s) hx ▸ raisedByCauses_opRcp a
  | classify | rdflags | clrflags | reserved =>
    cases hx
    exact raisedByCauses_noFlags rfl (not_dividesByZero nofun nofun nofun) (not_isInvalid nofun nofun nofun)

/-! ### Resets before, after and during a transaction (R235, R237) -/

/-- Two steps of a run are the second step, from where the first one ends. -/
theorem run_two {s t : State} (h : step s = .next t) : Host.Core.run Sys2Proof.core 2 s = step t := by
  obtain ⟨u, hu⟩ := step_completes t
  exact (run_succ 1 h).trans ((run_succ 0 hu).trans hu.symm)

/-- Settles O11: each input is one step, a reset's step leaves no flag and no response whatever the transaction before it left,
and the transaction leaves the reset issued. -/
theorem resetOrdersWithTransactions : Obligations.ResetOrdersWithTransactions := by
  intro f x r rest
  refine ⟨?_, ?_, step_resetDuring f rest x r⟩
  · exact (run_two (step_reset f (.request r :: rest) x)).trans (step_request ..)
  · obtain ⟨⟨g, pending, y⟩, hexec, rfl, -⟩ := exec_flagsAfter r { flags := f, pending := .reset :: rest, response := x }
    exact (run_two ((step_request ..).trans hexec)).trans (step_reset g rest y)

/-! ### Request words of the spec's programs (R56) -/

/-- The table word of an instruction's encoding decodes to the instruction. -/
theorem decodeTableWord_of_encode {i : Instr} {n : Nat} (hi : i.wellFormed = true) (hn : (packRequest (encode i)).toNat = n) :
    decodeTableWord 104 n = some i :=
  hn ▸ (decodeInvertsEncode i hi).2

/-- Settles O3: each word is the encoding of the operation beside it. -/
theorem specWordsDecode : Obligations.SpecWordsDecode :=
  ⟨decodeTableWord_of_encode rfl rfl, decodeTableWord_of_encode rfl rfl, decodeTableWord_of_encode rfl rfl,
    decodeTableWord_of_encode rfl rfl, decodeTableWord_of_encode rfl rfl, decodeTableWord_of_encode rfl rfl,
    decodeTableWord_of_encode rfl rfl, decodeTableWord_of_encode rfl rfl, decodeTableWord_of_encode rfl rfl,
    decodeTableWord_of_encode rfl rfl, decodeTableWord_of_encode rfl rfl⟩

end Sys2Proof.Machine
end
